-- ==== Sys2Proof/Word.lean ====
section
/-! DEFINITION. The widths of the block's ports (spec/00_scope.md R8, R10; spec/10_state.md R24, R26). -/

namespace Sys2Proof

/-- A Word: a 16-bit unsigned value, bit 0 least significant (R9, R10; `W = 16`, R8). -/
abbrev Word := BitVec 16

/-- A range bound as the ports carry it: 5 bits, 0 to 31, so that a malformed range can be
presented (R24). -/
abbrev Bound := BitVec 5

/-- The opcode field, bits 15 down to 10 of a word (R62). -/
abbrev OpcodeField := BitVec 6

end Sys2Proof
end

