-- ==== Sys2Proof/Machine/Operands.lean ====
section
/-! DEFINITION. The operands of the bit-field operations: ranges, how a caller builds them, and the bit groups of
an instruction word (spec/40_bitfield.md R100-R103; spec/30_encoding.md R62, R65). -/

namespace Sys2Proof

/-- A BitRange, inclusive at both ends, as the ports carry it (R24). `last` is the spec's `end`. -/
structure BitRange where
  start : Bound
  last : Bound
deriving DecidableEq, Repr

/-- The range `start..=last` for bounds written as numbers below 32. -/
def BitRange.ofNats (start last : Nat) : BitRange :=
  { start := BitVec.ofNat 5 start, last := BitVec.ofNat 5 last }

/-- R100: well-formed exactly when `start <= end` and `end <= 15`. -/
def BitRange.wellFormed (r : BitRange) : Bool :=
  decide (r.start.toNat ≤ r.last.toNat) && decide (r.last.toNat ≤ 15)

/-- R103: the field width, `end - start + 1`, of a well-formed range. -/
def BitRange.width (r : BitRange) : Nat :=
  r.last.toNat - r.start.toNat + 1

/-- Whether the range covers bit position `i`. -/
def BitRange.covers (r : BitRange) (i : Nat) : Prop :=
  r.start.toNat ≤ i ∧ i ≤ r.last.toNat

/-- The full range `0..=15` (R101). -/
def BitRange.full : BitRange := BitRange.ofNats 0 15

/-- R11: `ones(w) = 2^w - 1`, the low `w` bits one, as a Word (`w <= 16`). -/
def ones (w : Nat) : Word :=
  BitVec.ofNat 16 (2 ^ w - 1)

/-- R103: the in-place field mask `FM = (ones(width) << start)[15:0]`. -/
def BitRange.fieldMask (r : BitRange) : Word :=
  ones r.width <<< r.start.toNat

/-- The bound styles a caller may write (R102). `upTo` and `between` are half-open: `stop` names the first bit
not included. Every bound a caller writes is a 5-bit number, the exclusive one too, so that `a..32` cannot be written.
DESIGN CHOICE, safe: notes/assumptions/24.md. -/
inductive RangeForm where
  /-- `first..=last` -/
  | inclusive (first last : Bound)
  /-- `first..` -/
  | startingAt (first : Bound)
  /-- `..=last` -/
  | through (last : Bound)
  /-- `..` -/
  | everything
  /-- `first..stop` -/
  | between (first stop : Bound)
  /-- `..stop` -/
  | upTo (stop : Bound)
deriving DecidableEq, Repr

/-- The range for an exclusive bound 0, which is empty whatever the start: `start > end`, malformed (R102). No number
is one below 0, so the end is 0 and the start is at least 1. DESIGN CHOICE, unsafe for the fault's record only:
notes/assumptions/11.md. -/
def emptyRange (first : Bound) : BitRange :=
  { start := if first = 0 then 1 else first, last := 0 }

/-- R102: the half-open `first..stop` is `{first, stop - 1}`. -/
def halfOpen (first stop : Bound) : BitRange :=
  if stop = 0 then emptyRange first else { start := first, last := stop - 1 }

/-- R101 and R102: every bound style collapses to one inclusive range, with default start 0 and default end 15.
An exclusive bound 0 has no bound below it: `emptyRange` stands for it. -/
def RangeForm.collapse : RangeForm → BitRange
  | .inclusive first last => { start := first, last := last }
  | .startingAt first => { start := first, last := 15 }
  | .through last => { start := 0, last := last }
  | .everything => { start := 0, last := 15 }
  | .between first stop => halfOpen first stop
  | .upTo stop => halfOpen 0 stop

/-- `OPC`, bits [15:10] of every word (R62, R65). -/
def opcRange : BitRange := BitRange.ofNats 10 15

/-- `F_A`, bits [9:7] (R65). -/
def fARange : BitRange := BitRange.ofNats 7 9

/-- `F_B`, bits [6:4] (R65). -/
def fBRange : BitRange := BitRange.ofNats 4 6

/-- `F_C`, bits [3:1] (R65). -/
def fCRange : BitRange := BitRange.ofNats 1 3

/-- Bits [2:1] of `F_C`, free in the rows whose mask holds bit 3 (R64, R86). -/
def fC21Range : BitRange := BitRange.ofNats 1 2

/-- `F_0`, bit 0 (R65). -/
def f0Range : BitRange := BitRange.ofNats 0 0

/-- One operand of the encoding procedure of R68: a value and the field it goes into. -/
structure FieldValue where
  range : BitRange
  value : Word
deriving DecidableEq, Repr

end Sys2Proof
end

