-- ==== Sys2Proof/Config.lean ====
section
/-! DEFINITION. What an implementation of the block fixes (spec/00_scope.md R8; spec/10_state.md R21, R22, R26, R27).
These are types only: the reference values stand in Machine/RefRom.lean, and a configuration is part of State,
so that a statement about every state is a statement about every choice of the open parameters. -/

namespace Sys2Proof

/-- A descriptor, the immutable triple of R22. A one bit of `mask` is compared, a zero bit is ignored. -/
structure Descriptor where
  name : String
  code : Word
  mask : Word
deriving DecidableEq, Repr

/-- The classes of R26; `unclassified` is an opcode that `CLASS_OF` does not place. -/
inductive InstrClass where
  | dataManipulation
  | arithmetic
  | logic
  | control
  | io
  | unclassified
deriving DecidableEq, Repr

/-- The parameter `REPLACE_OVERFLOW` (R8, R110): what REPLACE does with bits beyond the range's width. -/
inductive ReplaceOverflow where
  | leak
  | mask
deriving DecidableEq, Repr

/-- The parameter `INVALID_WORD_POLICY` (R8, R206). It belongs to the core around the block; only the caller
loop of Machine/Caller.lean reads it. -/
inductive InvalidWordPolicy where
  | trap
  | halt
deriving DecidableEq, Repr

/-- The block's read-only configuration (R36). `descTable` is `DESC_TABLE` in declaration order, with the name
ROM as its `name` column (R21, R27). `classOf` is `CLASS_OF`, one entry for each of the 64 opcodes (R26). -/
structure Config where
  descTable : List Descriptor
  classOf : Vector InstrClass 64
  replaceOverflow : ReplaceOverflow
deriving DecidableEq, Repr

end Sys2Proof
end

