-- ==== Sys2Proof/Machine/RefRom.lean ====
section
/-! DEFINITION. The reference decode ROM and class map, `REF_TABLE` and `REF_CLASS` (spec/30_encoding.md R86, R87).
They are the spec's own choice and not the processor's table: a statement that names them holds of them only. -/

namespace Sys2Proof

/-- R86 row 0 (R74, D9(a)). -/
def nopRow : Descriptor := { name := "NOP", code := 0x0000, mask := 0xFC00 }

/-- R86 row 1 (R75, D9(c)). -/
def loadRow : Descriptor := { name := "LOAD", code := 0xC000, mask := 0xFC00 }

/-- R86 row 2 (R76). -/
def addRow : Descriptor := { name := "ADD", code := 0x8000, mask := 0xFC01 }

/-- R86 row 3 (R76). -/
def addcRow : Descriptor := { name := "ADDC", code := 0x8001, mask := 0xFC01 }

/-- R86 row 4, a placeholder for R77. -/
def xIncRow : Descriptor := { name := "X_INC", code := 0x8800, mask := 0xFC08 }

/-- R86 row 5, a placeholder for R77. -/
def xDecRow : Descriptor := { name := "X_DEC", code := 0x8808, mask := 0xFC08 }

/-- R86 row 6, a placeholder for R78. -/
def xShrot0Row : Descriptor := { name := "X_SHROT0", code := 0x9000, mask := 0xFC0E }

/-- R86 row 7, a placeholder for R78. -/
def xShrot1Row : Descriptor := { name := "X_SHROT1", code := 0x9002, mask := 0xFC0E }

/-- R86 row 8, a placeholder for R78. -/
def xShrot2Row : Descriptor := { name := "X_SHROT2", code := 0x9004, mask := 0xFC0E }

/-- R86 row 9, a placeholder for R78. -/
def xShrot3Row : Descriptor := { name := "X_SHROT3", code := 0x9006, mask := 0xFC0E }

/-- `REF_TABLE` (R86), in declaration order. -/
def refTable : List Descriptor :=
  [nopRow, loadRow, addRow, addcRow, xIncRow, xDecRow, xShrot0Row, xShrot1Row, xShrot2Row, xShrot3Row]

/-- `REF_CLASS` of one opcode (R87). -/
def refClassOf (opcode : Nat) : InstrClass :=
  if opcode = 0x30 then .dataManipulation
  else if opcode = 0x20 then .arithmetic
  else if opcode = 0x22 then .arithmetic
  else if opcode = 0x24 then .logic
  else .unclassified

/-- `REF_CLASS` (R87) as the 64-entry lookup of R168. -/
def refClass : Vector InstrClass 64 :=
  Vector.ofFn fun opcode => refClassOf opcode.val

/-- The configuration of the spec's test vectors and programs: `REF_TABLE`, `REF_CLASS` and the default
`REPLACE_OVERFLOW = Leak` (R8; spec/95_test_vectors.md section 3). -/
def refConfig : Config :=
  { descTable := refTable, classOf := refClass, replaceOverflow := .leak }

end Sys2Proof
end

