-- ==== Sys2Proof/Syntax.lean ====
section
/-! DEFINITION. The ISA instructions of spec/opcode_table.json, one constructor a row (the rows of REF_TABLE,
spec/30_encoding.md R86). -/

namespace Sys2Proof

/-- An ISA instruction as its word gives it. The arguments are the bits outside the row's mask, by the groups of
R65: `fA` is [9:7], `fB` is [6:4], `fC` is [3:1], `fC21` is [2:1] (where bit 3 selects the row), `f0` is [0].
They carry operands whose meaning no source gives (R66). -/
inductive Instr where
  /-- NOP (R181). -/
  | nop (fA fB fC : BitVec 3) (f0 : BitVec 1)
  /-- LOAD (R182). -/
  | load (fA fB fC : BitVec 3) (f0 : BitVec 1)
  /-- ADD (R183): bit 0 is 0. -/
  | add (fA fB fC : BitVec 3)
  /-- ADDC (R184): bit 0 is 1. -/
  | addc (fA fB fC : BitVec 3)
  /-- X_INC (R185): bit 3 is 0. -/
  | xInc (fA fB : BitVec 3) (fC21 : BitVec 2) (f0 : BitVec 1)
  /-- X_DEC (R186): bit 3 is 1. -/
  | xDec (fA fB : BitVec 3) (fC21 : BitVec 2) (f0 : BitVec 1)
  /-- X_SHROT0 (R187): bits [3:1] are 000. -/
  | xShrot0 (fA fB : BitVec 3) (f0 : BitVec 1)
  /-- X_SHROT1 (R188): bits [3:1] are 001. -/
  | xShrot1 (fA fB : BitVec 3) (f0 : BitVec 1)
  /-- X_SHROT2 (R189): bits [3:1] are 010. -/
  | xShrot2 (fA fB : BitVec 3) (f0 : BitVec 1)
  /-- X_SHROT3 (R190): bits [3:1] are 011. -/
  | xShrot3 (fA fB : BitVec 3) (f0 : BitVec 1)
deriving DecidableEq, Repr

end Sys2Proof
end

