-- ==== Sys2Proof/Machine/InstrRow.lean ====
section
/-! DEFINITION. Each ISA instruction's row of the opcode table and the operand fields of its word
(spec/opcode_table.json; spec/30_encoding.md R65, R86). -/

namespace Sys2Proof

/-- The row's declaration index in `REF_TABLE` (R86). -/
def Instr.row : Instr → Nat
  | .nop _ _ _ _ => 0
  | .load _ _ _ _ => 1
  | .add _ _ _ => 2
  | .addc _ _ _ => 3
  | .xInc _ _ _ _ => 4
  | .xDec _ _ _ _ => 5
  | .xShrot0 _ _ _ => 6
  | .xShrot1 _ _ _ => 7
  | .xShrot2 _ _ _ => 8
  | .xShrot3 _ _ _ => 9

/-- The row itself. -/
def Instr.descriptor : Instr → Descriptor
  | .nop _ _ _ _ => nopRow
  | .load _ _ _ _ => loadRow
  | .add _ _ _ => addRow
  | .addc _ _ _ => addcRow
  | .xInc _ _ _ _ => xIncRow
  | .xDec _ _ _ _ => xDecRow
  | .xShrot0 _ _ _ => xShrot0Row
  | .xShrot1 _ _ _ => xShrot1Row
  | .xShrot2 _ _ _ => xShrot2Row
  | .xShrot3 _ _ _ => xShrot3Row

/-- `F_A` and `F_B`, which every row leaves free. -/
def upperFields (fA fB : BitVec 3) : List FieldValue :=
  [{ range := fARange, value := fA.setWidth 16 }, { range := fBRange, value := fB.setWidth 16 }]

/-- `F_C` as an operand. -/
def fCField (fC : BitVec 3) : FieldValue := { range := fCRange, value := fC.setWidth 16 }

/-- Bits [2:1] of `F_C` as an operand. -/
def fC21Field (fC21 : BitVec 2) : FieldValue := { range := fC21Range, value := fC21.setWidth 16 }

/-- `F_0` as an operand. -/
def f0Field (f0 : BitVec 1) : FieldValue := { range := f0Range, value := f0.setWidth 16 }

/-- The operands of the instruction's word, each with its field: the bits outside the row's mask. -/
def Instr.fields : Instr → List FieldValue
  | .nop fA fB fC f0 => upperFields fA fB ++ [fCField fC, f0Field f0]
  | .load fA fB fC f0 => upperFields fA fB ++ [fCField fC, f0Field f0]
  | .add fA fB fC => upperFields fA fB ++ [fCField fC]
  | .addc fA fB fC => upperFields fA fB ++ [fCField fC]
  | .xInc fA fB fC21 f0 => upperFields fA fB ++ [fC21Field fC21, f0Field f0]
  | .xDec fA fB fC21 f0 => upperFields fA fB ++ [fC21Field fC21, f0Field f0]
  | .xShrot0 fA fB f0 => upperFields fA fB ++ [f0Field f0]
  | .xShrot1 fA fB f0 => upperFields fA fB ++ [f0Field f0]
  | .xShrot2 fA fB f0 => upperFields fA fB ++ [f0Field f0]
  | .xShrot3 fA fB f0 => upperFields fA fB ++ [f0Field f0]

end Sys2Proof
end

