-- ==== Sys2Proof/Machine/Requests.lean ====
section
/-! DEFINITION. What a caller asks of the block and what the block answers: the requests of spec/30_encoding.md R85,
spec/10_state.md R30-R33, spec/41_decoder.md R143 and spec/43_isa_instructions.md R180, and their responses. -/

namespace Sys2Proof

/-- R25: the record of a decode failure, "the offending raw word". -/
structure DecodeError where
  code : Word
deriving DecidableEq, Repr

/-- One request: the input values on a port group, or the composition of R143, or the execution that R180 refuses.
A request written down holds its index as a number, as R85 writes it, so that it means the same to every configuration.
The index reaches the block as the `IDX_W` bits of `c_index` (R33, R44), or as an Instruction of type `Fin N` for NAME
and EXECUTE (R23, R165): `Machine.atPort` and `Machine.atInstruction` of Machine/Ops.lean. -/
inductive Request where
  /-- EXTRACT (R104). -/
  | extract (value : Word) (range : BitRange)
  /-- REPLACE (R110). -/
  | replace (value bits : Word) (range : BitRange)
  /-- DECODE (R131). -/
  | decode (raw : Word)
  /-- CLASSIFY_WORD: decode, then classify (R143). -/
  | classifyWord (raw : Word)
  /-- EXECUTE: decode, then execute, which the block refuses (R180, R181). -/
  | execute (raw : Word)
  /-- EXECUTE of an instruction by its index, which the block refuses (R180). -/
  | executeInstr (index : Nat)
  /-- OPCODE (R161). -/
  | opcode (index : Nat)
  /-- MASK (R163). -/
  | mask (index : Nat)
  /-- CODE (R164). -/
  | code (index : Nat)
  /-- NAME (R165). -/
  | name (index : Nat)
  /-- CLASS (R166). -/
  | classOf (index : Nat)
  /-- The whole CLASSIFY group at once (R33). -/
  | classify (index : Nat)
deriving DecidableEq, Repr

/-- The word of a request that presents one at the word port. -/
def Request.word? : Request → Option Word
  | .decode raw => some raw
  | .classifyWord raw => some raw
  | .execute raw => some raw
  | .extract _ _ => none
  | .replace _ _ _ => none
  | .executeInstr _ => none
  | .opcode _ => none
  | .mask _ => none
  | .code _ => none
  | .name _ => none
  | .classOf _ => none
  | .classify _ => none

/-- What the classifier says of one instruction: the tuple of R143. -/
structure Classification where
  opcode : Word
  mask : Word
  code : Word
  name : String
  instrClass : InstrClass
deriving DecidableEq, Repr

/-- The value a request is answered with. Outputs that carry no meaning (spec/93_implementation_defined.md I9) are
in no response. -/
inductive Response where
  /-- `x_out` (R30). -/
  | extracted (out : Word)
  /-- `r_out` and the diagnostic `r_overflow` (R31). -/
  | replaced (out : Word) (overflow : Bool)
  /-- The number of the Instruction that DECODE returns, `d_index` with `d_valid = 1` (R23, R32). -/
  | decoded (index : Nat)
  /-- CLASSIFY_WORD: the index and its classification (R143). -/
  | classifiedWord (index : Nat) (info : Classification)
  /-- `c_opcode` (R161). -/
  | opcode (word : Word)
  /-- `c_mask` (R163). -/
  | mask (word : Word)
  /-- `c_code` (R164). -/
  | code (word : Word)
  /-- The display name (R165). -/
  | name (text : String)
  /-- The class (R166); the port shows its `InstrClass.portCode`. -/
  | instrClass (which : InstrClass)
  /-- The CLASSIFY group (R33), with the name of R165. -/
  | classified (info : Classification)
deriving DecidableEq, Repr

end Sys2Proof
end

