-- ==== Sys2Proof/Machine/Bitfield.lean ====
section
/-! DEFINITION. The bit-field engine: what EXTRACT and REPLACE compute for a well-formed range
(spec/40_bitfield.md R104, R110). The check of the range, and the fault, stand in Machine/Ops.lean. -/

namespace Sys2Proof

/-- EXTRACT's result (R104): `(value >> start) & ones(width)`. -/
def extractField (value : Word) (r : BitRange) : Word :=
  (value >>> r.start.toNat) &&& ones r.width

/-- The contents REPLACE shifts into place (R110): `bits`, cut to the range's width under `Mask`. -/
def replaceBits (mode : ReplaceOverflow) (bits : Word) (r : BitRange) : Word :=
  match mode with
  | .leak => bits
  | .mask => bits &&& ones r.width

/-- REPLACE's result (R110): `((value & ~FM) | (b << start))[15:0]`. Bits shifted above bit 15 are lost. -/
def replaceField (mode : ReplaceOverflow) (value bits : Word) (r : BitRange) : Word :=
  (value &&& ~~~ r.fieldMask) ||| (replaceBits mode bits r <<< r.start.toNat)

end Sys2Proof
end

