-- ==== Sys2Proof/Machine/Rom.lean ====
section
/-! DEFINITION. The decode ROM: matching, the first-match scan, the table checks W1 and W3, and what the classifier
reads (spec/41_decoder.md R130, R131, R138, R140; spec/42_classifier.md R160-R166). -/

namespace Sys2Proof

/-- R130: `D` matches `raw` exactly when `(raw & D.mask) == D.code`. -/
def Descriptor.matchesWord (d : Descriptor) (raw : Word) : Bool :=
  (raw &&& d.mask) == d.code

/-- An Instruction of a table (R23): a declaration index `i` with `0 <= i < N`, of type `Fin N`. -/
abbrev Instruction (table : List Descriptor) : Type :=
  Fin table.length

/-- DECODE's scan (R131): the first Instruction in declaration order whose descriptor matches, none when no
descriptor matches. -/
def firstInstruction : (table : List Descriptor) → Word → Option (Instruction table)
  | [], _ => none
  | d :: ds, raw =>
    if d.matchesWord raw then some ⟨0, Nat.succ_pos ds.length⟩ else (firstInstruction ds raw).map Fin.succ

/-- The number of the Instruction that the scan finds (R23, R131). -/
def firstMatch (table : List Descriptor) (raw : Word) : Option Nat :=
  (firstInstruction table raw).map Fin.val

/-- The descriptor of an Instruction, `DESC_TABLE[i]` (R13). -/
def descriptorAt (table : List Descriptor) (i : Instruction table) : Descriptor :=
  table.get i

/-- NAME, the function `Fin N -> String` of R27 and R165. -/
def nameOf (table : List Descriptor) (i : Instruction table) : String :=
  (descriptorAt table i).name

/-- R72: every bit the descriptor fixes is covered by its mask, `code & mask == code`. -/
def Descriptor.codeWithinMask (d : Descriptor) : Bool :=
  (d.code &&& d.mask) == d.code

/-- `TABLE_OK`, check W1 (R138). -/
def tableOk (table : List Descriptor) : Bool :=
  table.all Descriptor.codeWithinMask

/-- The descriptor's mask covers the opcode field (R140). -/
def Descriptor.coversOpcode (d : Descriptor) : Bool :=
  (d.mask &&& 0xFC00) == 0xFC00

/-- Check W3, an optional property of a table (R140). -/
def tableCoversOpcode (table : List Descriptor) : Bool :=
  table.all Descriptor.coversOpcode

/-- OPCODE (R161): bits 15 down to 10 of the defining code, as a Word. -/
def Descriptor.opcode (d : Descriptor) : Word :=
  extractField d.code opcRange

/-- CLASS (R166): `CLASS_OF(OPCODE(i)[5:0])`. -/
def Descriptor.instrClass (classOf : Vector InstrClass 64) (d : Descriptor) : InstrClass :=
  classOf.get (d.opcode.setWidth 6).toFin

/-- The port's 3-bit encoding of a class (R26); 5 and 6 are never produced. -/
def InstrClass.portCode : InstrClass → BitVec 3
  | .dataManipulation => 0
  | .arithmetic => 1
  | .logic => 2
  | .control => 3
  | .io => 4
  | .unclassified => 7

/-- `IDX_W = max(1, ceil(log2(N)))` (R8): the least width that holds every index of a table of `n` entries. -/
def indexWidth (n : Nat) : Nat :=
  max 1 (((List.range n).find? fun w => decide (n ≤ 2 ^ w)).getD 0)

/-- What the index ports of a ROM of `n` descriptors carry: `IDX_W` bits (R32, R33, R44). -/
abbrev IndexPort (n : Nat) : Type :=
  BitVec (indexWidth n)

/-- A number as the index port carries it, none where it has more than `IDX_W` bits. -/
def carryIndex (n index : Nat) : Option (IndexPort n) :=
  if index < 2 ^ indexWidth n then some (BitVec.ofNat (indexWidth n) index) else none

end Sys2Proof
end

