-- ==== Sys2Proof/WellFormed.lean ====
section
/-! DEFINITION. The checks on what is given to the block: operands of an encoding, instructions, requests and
configurations (spec/30_encoding.md R68, R72; spec/10_state.md R24, R33; spec/41_decoder.md R138). -/

namespace Sys2Proof

/-- The operand fits its field (R68). -/
def FieldValue.fits (f : FieldValue) : Bool :=
  decide (f.value.toNat < 2 ^ f.range.width)

/-- The field lies outside the descriptor's mask (R68). -/
def FieldValue.outsideMask (d : Descriptor) (f : FieldValue) : Bool :=
  (f.range.fieldMask &&& d.mask) == 0

/-- An operand the encoding procedure of R68 may place into a word of `d`. -/
def FieldValue.wf (d : Descriptor) (f : FieldValue) : Bool :=
  f.range.wellFormed && f.fits && f.outsideMask d

/-- An encoding's operands are all well-formed for the descriptor (R68). -/
def fieldsWellFormed (d : Descriptor) (fs : List FieldValue) : Bool :=
  fs.all (FieldValue.wf d)

/-- An instruction is well-formed when its row meets R72 and its operands meet R68. The argument types of Instr are
the fields' own widths, so every Instr is (Laws/PerInstr.lean). -/
def Instr.wf (i : Instr) : Bool :=
  i.descriptor.codeWithinMask && fieldsWellFormed i.descriptor i.fields

/-- A request that can be presented to a ROM of `n` descriptors: an index at the port has `IDX_W` bits (R33), and NAME
and EXECUTE take an Instruction (R23, R165). Bounds and words fit by their types. -/
def Request.wf (n : Nat) : Request → Bool
  | .opcode index => (carryIndex n index).isSome
  | .mask index => (carryIndex n index).isSome
  | .code index => (carryIndex n index).isSome
  | .name index => decide (index < n)
  | .executeInstr index => decide (index < n)
  | .classOf index => (carryIndex n index).isSome
  | .classify index => (carryIndex n index).isSome
  | .extract _ _ => true
  | .replace _ _ _ => true
  | .decode _ => true
  | .classifyWord _ => true
  | .execute _ => true

/-- A configuration the model does not refuse: its table passes W1 (R138). -/
def Config.wf (c : Config) : Bool :=
  tableOk c.descTable

end Sys2Proof
end

