-- ==== Sys2Proof/Decode.lean ====
section
/-! DEFINITION. Decoding a word of the opcode table into an Instr, and encoding an Instr into its word
(spec/opcode_table.json; spec/30_encoding.md R60-R65, R68, R86). The block's own DECODE, for any configured table,
is `firstMatch` of Machine/Rom.lean; here the table's fixed bits are read by hand, so that the two can be compared. -/

namespace Sys2Proof

/-- A field's bits as an operand of `w` bits. -/
def operandOf (w : Nat) (raw : Word) (r : BitRange) : BitVec w :=
  (extractField raw r).setWidth w

/-- The instruction of a word by the opcode table's fixed bits, or the rejection that names the word (R82, R201).
Total on all `2^16` words (R137). -/
def decodeWord (raw : Word) : Except DecodeError Instr :=
  let fA := operandOf 3 raw fARange
  let fB := operandOf 3 raw fBRange
  let fC := operandOf 3 raw fCRange
  let fC21 := operandOf 2 raw fC21Range
  let f0 := operandOf 1 raw f0Range
  match (extractField raw opcRange).toNat with
  | 0x00 => .ok (.nop fA fB fC f0)
  | 0x30 => .ok (.load fA fB fC f0)
  | 0x20 => if raw.getLsbD 0 then .ok (.addc fA fB fC) else .ok (.add fA fB fC)
  | 0x22 => if raw.getLsbD 3 then .ok (.xDec fA fB fC21 f0) else .ok (.xInc fA fB fC21 f0)
  | 0x24 =>
    match fC.toNat with
    | 0 => .ok (.xShrot0 fA fB f0)
    | 1 => .ok (.xShrot1 fA fB f0)
    | 2 => .ok (.xShrot2 fA fB f0)
    | 3 => .ok (.xShrot3 fA fB f0)
    | _ => .error { code := raw }
  | _ => .error { code := raw }

/-- The encoding procedure of R68 on well-formed ranges: start from the code, REPLACE each operand into its field. -/
def assembleWord (mode : ReplaceOverflow) (code : Word) (fs : List FieldValue) : Word :=
  fs.foldl (fun w f => replaceField mode w f.value f.range) code

/-- The word of an instruction, by R68 from its row's code and its operands. Every operand fits its field, so the
result is the same under either REPLACE_OVERFLOW. -/
def encode (i : Instr) : Word :=
  assembleWord .leak i.descriptor.code i.fields

/-- The instruction the decoder reads from a table row's bits. An instruction is exactly one 16-bit word (R60), so a
number that does not fit one is no instruction. A row given fewer than 16 bits is read with its missing high bits zero.
DESIGN CHOICE: notes/assumptions/14.md. -/
def decodeTableWord (nbits w : Nat) : Option Instr :=
  if nbits ≤ 16 ∧ w < 2 ^ 16 then
    match decodeWord (BitVec.ofNat 16 w) with
    | .ok i => some i
    | .error _ => none
  else none

end Sys2Proof
end

