-- ==== Sys2Proof/Machine/State.lean ====
section
/-! DEFINITION. The machine's state, and the reasons a step can stop (spec/10_state.md R20-R36;
spec/60_exceptions.md R200; spec/43_isa_instructions.md R180). The block stores nothing but its configuration; the
request and response lists are the caller's side of its ports (notes/assumptions/4.md). -/

namespace Sys2Proof.Machine

/-- The faults of R200, and no others. All are safe: the request has no value in the model, as it has none for the
caller (R201-R203). -/
inductive Fault where
  /-- Raised by DECODE, CLASSIFY_WORD and EXECUTE when no descriptor matches the word (R201). Safe. -/
  | decodeError (error : DecodeError)
  /-- Raised by EXTRACT and REPLACE on a malformed range (R202). Safe. -/
  | rangeFault (start last : Bound)
  /-- Raised by the accessors of the CLASSIFY port, and CLASSIFY, when `c_index` is not below N (R203). Safe. -/
  | indexFault (index : Nat)
deriving DecidableEq, Repr

/-- Why the model gives a request no meaning. -/
inductive Refusal where
  /-- Raised by exec's arm of an instruction that has no meaning yet. Safe. -/
  | notModelled (mnemonic : String)
  /-- Raised by EXECUTE: `ExecutionNotInSource(NAME(i))` (R180). Safe. -/
  | executionNotInSource (name : String)
  /-- Raised by every request that reads a table failing check W1: the model has no decode for it (R138). Safe. -/
  | tableRefused
  /-- Raised by OPCODE, MASK, CODE, CLASS and CLASSIFY of a number with more than `IDX_W` bits: no `c_index` carries it
  (R33, R44). DESIGN CHOICE, safe: notes/assumptions/10.md. -/
  | indexNotCarried (index : Nat)
  /-- Raised by NAME and EXECUTE of a number not below N: it is no Instruction (R23, R160), and these operations have no
  port at which a fault could be raised (R165). DESIGN CHOICE, safe: notes/assumptions/10.md. -/
  | notAnInstruction (index : Nat)
deriving DecidableEq, Repr

/-- The state. `config` is the block's read-only configuration (R36). `pending` are the requests the caller has
presented and `served` the answered ones with their responses, oldest first. -/
structure State where
  config : Config
  pending : List Request
  served : List (Request × Response)
deriving DecidableEq, Repr

/-- From power-on the configuration holds its configured contents (R221), here the spec's reference one (DESIGN
CHOICE, unsafe: notes/assumptions/1.md, 2.md, 3.md), and nothing is presented or answered (R220). -/
def State.reset : State :=
  { config := refConfig, pending := [], served := [] }

end Sys2Proof.Machine
end

