-- ==== Sys2Proof/Machine/Flags.lean ====
section
/-! DEFINITION. The block's status outputs. The block has no flags (spec/10_state.md R20, R29); what it shows beside
its data are the error and diagnostic outputs of R30-R33 and the STATUS number of spec/60_exceptions.md R205. -/

namespace Sys2Proof

/-- `x_range_err` and `r_range_err`: `start > end or end > 15` (R106, R202). -/
def rangeErr (r : BitRange) : Bool :=
  decide (r.last.toNat < r.start.toNat) || decide (15 < r.last.toNat)

/-- `r_overflow`, `REPLACE_OVERFLOWS(bits, r)` (R112): the range is well-formed and `bits` does not fit its width. -/
def replaceOverflows (bits : Word) (r : BitRange) : Bool :=
  r.wellFormed && (bits &&& ~~~ ones r.width) != 0

/-- `c_index_err` (R160, R203). -/
def indexErr (table : List Descriptor) (index : IndexPort table.length) : Bool :=
  decide (table.length ≤ index.toNat)

namespace Machine

/-- The STATUS number of a fault (R205). -/
def Fault.status : Fault → Nat
  | .decodeError _ => 1
  | .rangeFault _ _ => 2
  | .indexFault _ => 3

/-- The STATUS number of a request's outcome (R205); a refused request has none. -/
def statusOf {α : Type} : Host.Outcome α Fault Refusal → Option Nat
  | .next _ => some 0
  | .fault f => some f.status
  | .refused _ => none

end Machine

end Sys2Proof
end

