-- ==== Sys2Proof/Machine/Ops.lean ====
section
/-! DEFINITION. The shared operations: what the block answers to each request, and how a state takes the answer
(spec/40_bitfield.md R104, R110; spec/41_decoder.md R131, R138, R143; spec/42_classifier.md R160-R166;
spec/43_isa_instructions.md R180). The block takes no trap and returns from none (spec/60_exceptions.md R208), so a
fault is an outcome and no state is saved. -/

namespace Sys2Proof.Machine

/-- What a request comes to: a response, a fault or a refusal (R12). -/
abbrev Answer := Host.Outcome Response Fault Refusal

/-- A request that reads the ROM: refused as a whole when the table fails W1 (R138). -/
def onRom (c : Config) (answer : Answer) : Answer :=
  if tableOk c.descTable then answer else .refused .tableRefused

/-- R131: go on with the Instruction of the first match, or raise DecodeError with the whole word. -/
def identify (c : Config) (raw : Word) (go : Instruction c.descTable → Answer) : Answer :=
  match firstInstruction c.descTable raw with
  | some i => go i
  | none => .fault (.decodeError { code := raw })

/-- R160: the check of the raw index port. A `c_index` below N is an Instruction, any other raises IndexFault. -/
def checkIndex (c : Config) (index : IndexPort c.descTable.length) (go : Instruction c.descTable → Answer) : Answer :=
  if h : index.toNat < c.descTable.length then go ⟨index.toNat, h⟩ else .fault (.indexFault index.toNat)

/-- An accessor of the CLASSIFY port: the index is presented in `IDX_W` bits (R33, R44) and checked there. A number
that these bits cannot carry is no request of the port. DESIGN CHOICE: notes/assumptions/10.md. -/
def atPort (c : Config) (index : Nat) (go : Instruction c.descTable → Answer) : Answer :=
  match carryIndex c.descTable.length index with
  | some carried => checkIndex c carried go
  | none => .refused (.indexNotCarried index)

/-- An operation of the typed interface, whose operand is an Instruction and which raises no fault (R160, R165). A
number not below N is no Instruction, so such a request has no meaning. DESIGN CHOICE: notes/assumptions/10.md. -/
def atInstruction (c : Config) (index : Nat) (go : Instruction c.descTable → Answer) : Answer :=
  if h : index < c.descTable.length then go ⟨index, h⟩ else .refused (.notAnInstruction index)

/-- R180: EXECUTE of an Instruction is refused by its NAME, whichever way it was named. -/
def executeInstruction (c : Config) (i : Instruction c.descTable) : Answer :=
  .refused (.executionNotInSource (nameOf c.descTable i))

/-- R143: everything the classifier says of an Instruction. -/
def classification (c : Config) (i : Instruction c.descTable) : Classification :=
  let d := descriptorAt c.descTable i
  { opcode := d.opcode, mask := d.mask, code := d.code, name := nameOf c.descTable i,
    instrClass := d.instrClass c.classOf }

/-- R104 and R110 raise RangeFault on a malformed range, whatever the other operands hold (R207). -/
def onRange (r : BitRange) (response : Response) : Answer :=
  if r.wellFormed then .next response else .fault (.rangeFault r.start r.last)

/-- The block's answer to one request, a function of the request and the configuration alone (R20, R34). -/
def answer (c : Config) : Request → Answer
  | .extract value r => onRange r (.extracted (extractField value r))
  | .replace value bits r =>
    onRange r (.replaced (replaceField c.replaceOverflow value bits r) (replaceOverflows bits r))
  | .decode raw => onRom c (identify c raw fun i => .next (.decoded i.val))
  | .classifyWord raw => onRom c (identify c raw fun i => .next (.classifiedWord i.val (classification c i)))
  | .execute raw => onRom c (identify c raw (executeInstruction c))
  | .executeInstr index => onRom c (atInstruction c index (executeInstruction c))
  | .opcode index => onRom c (atPort c index fun i => .next (.opcode (descriptorAt c.descTable i).opcode))
  | .mask index => onRom c (atPort c index fun i => .next (.mask (descriptorAt c.descTable i).mask))
  | .code index => onRom c (atPort c index fun i => .next (.code (descriptorAt c.descTable i).code))
  | .name index => onRom c (atInstruction c index fun i => .next (.name (nameOf c.descTable i)))
  | .classOf index =>
    onRom c (atPort c index fun i => .next (.instrClass ((descriptorAt c.descTable i).instrClass c.classOf)))
  | .classify index => onRom c (atPort c index fun i => .next (.classified (classification c i)))

/-- The state after a request is answered: it leaves the head of `pending` and is recorded with its response. The
configuration is never written (R21). -/
def State.complete (s : State) (q : Request) (response : Response) : State :=
  { s with pending := s.pending.tail, served := s.served ++ [(q, response)] }

/-- The state with one more request presented, to be answered first. -/
def State.present (s : State) (q : Request) : State :=
  { s with pending := q :: s.pending }

/-- A state takes the answer to a request: it records the response, or stops with the fault or the refusal and keeps
nothing of it (R204, R227). -/
def State.take (s : State) (q : Request) : Answer → Host.Outcome State Fault Refusal
  | .next response => .next (s.complete q response)
  | .fault f => .fault f
  | .refused r => .refused r

/-- Answer one request in a state. -/
def serve (q : Request) (s : State) : Host.Outcome State Fault Refusal :=
  s.take q (answer s.config q)

/-- What the caller asks about the word of an instruction: what the request at the head of `pending` asks about its
word, and DECODE when that request presents none. DESIGN CHOICE: notes/assumptions/7.md. -/
def State.ask (s : State) (raw : Word) : Request :=
  match s.pending with
  | .classifyWord _ :: _ => .classifyWord raw
  | .execute _ :: _ => .execute raw
  | _ => .decode raw

/-- The block meets an instruction's word at the word port and does what the caller asks about it: identifies it,
identifies and classifies it, or refuses to execute it (R143, R180, R194). -/
def meetWord (raw : Word) (s : State) : Host.Outcome State Fault Refusal :=
  serve (s.ask raw) s

end Sys2Proof.Machine
end

