-- ==== Sys2Proof/Machine/ArithInstrs.lean ====
section
/-! DEFINITION. ADD, ADDC and the increment and decrement placeholders (spec/43_isa_instructions.md R183-R186): what
the block does with their words (R180, R194; notes/assumptions/6.md). -/

namespace Sys2Proof.Machine

/-- ADD (R183): opcode 100000, bit 0 clear. -/
def execAdd (fA fB fC : BitVec 3) (s : State) : Host.Outcome State Fault Refusal :=
  meetWord (encode (.add fA fB fC)) s

/-- ADDC (R184): opcode 100000, bit 0 set. -/
def execAddc (fA fB fC : BitVec 3) (s : State) : Host.Outcome State Fault Refusal :=
  meetWord (encode (.addc fA fB fC)) s

/-- X_INC (R185): opcode 100010, bit 3 clear. -/
def execXInc (fA fB : BitVec 3) (fC21 : BitVec 2) (f0 : BitVec 1) (s : State) : Host.Outcome State Fault Refusal :=
  meetWord (encode (.xInc fA fB fC21 f0)) s

/-- X_DEC (R186): opcode 100010, bit 3 set. -/
def execXDec (fA fB : BitVec 3) (fC21 : BitVec 2) (f0 : BitVec 1) (s : State) : Host.Outcome State Fault Refusal :=
  meetWord (encode (.xDec fA fB fC21 f0)) s

end Sys2Proof.Machine
end

