-- ==== Sys2Proof/Machine/DataInstrs.lean ====
section
/-! DEFINITION. NOP and LOAD (spec/43_isa_instructions.md R181, R182). The source gives an instruction's identity and
encoding and leaves its execution out, so an instruction's meaning in the block is what the block does with its word:
DECODE and CLASSIFY answer, EXECUTE is refused (R180, R194; notes/assumptions/6.md). -/

namespace Sys2Proof.Machine

/-- NOP (R181): any word with bits [15:10] = 000000. -/
def execNop (fA fB fC : BitVec 3) (f0 : BitVec 1) (s : State) : Host.Outcome State Fault Refusal :=
  meetWord (encode (.nop fA fB fC f0)) s

/-- LOAD (R182): any word with bits [15:10] = 110000. -/
def execLoad (fA fB fC : BitVec 3) (f0 : BitVec 1) (s : State) : Host.Outcome State Fault Refusal :=
  meetWord (encode (.load fA fB fC f0)) s

end Sys2Proof.Machine
end

