-- ==== Sys2Proof/Machine/ShiftInstrs.lean ====
section
/-! DEFINITION. The four shift/rotate placeholders (spec/43_isa_instructions.md R187-R190): opcode 100100, told apart
by bits [3:1]. What the block does with their words (R180, R194; notes/assumptions/6.md). -/

namespace Sys2Proof.Machine

/-- X_SHROT0 (R187): bits [3:1] are 000. -/
def execXShrot0 (fA fB : BitVec 3) (f0 : BitVec 1) (s : State) : Host.Outcome State Fault Refusal :=
  meetWord (encode (.xShrot0 fA fB f0)) s

/-- X_SHROT1 (R188): bits [3:1] are 001. -/
def execXShrot1 (fA fB : BitVec 3) (f0 : BitVec 1) (s : State) : Host.Outcome State Fault Refusal :=
  meetWord (encode (.xShrot1 fA fB f0)) s

/-- X_SHROT2 (R189): bits [3:1] are 010. -/
def execXShrot2 (fA fB : BitVec 3) (f0 : BitVec 1) (s : State) : Host.Outcome State Fault Refusal :=
  meetWord (encode (.xShrot2 fA fB f0)) s

/-- X_SHROT3 (R190): bits [3:1] are 011. -/
def execXShrot3 (fA fB : BitVec 3) (f0 : BitVec 1) (s : State) : Host.Outcome State Fault Refusal :=
  meetWord (encode (.xShrot3 fA fB f0)) s

end Sys2Proof.Machine
end

