-- ==== Sys2Proof/Machine/Dispatch.lean ====
section
/-! DEFINITION. One arm per instruction of the opcode table. -/

namespace Sys2Proof.Machine

def exec (i : Instr) (s : State) : Host.Outcome State Fault Refusal :=
  match i with
  | .nop fA fB fC f0 => Sys2Proof.Machine.execNop fA fB fC f0 s
  | .load fA fB fC f0 => Sys2Proof.Machine.execLoad fA fB fC f0 s
  | .add fA fB fC => Sys2Proof.Machine.execAdd fA fB fC s
  | .addc fA fB fC => Sys2Proof.Machine.execAddc fA fB fC s
  | .xInc fA fB fC21 f0 => Sys2Proof.Machine.execXInc fA fB fC21 f0 s
  | .xDec fA fB fC21 f0 => Sys2Proof.Machine.execXDec fA fB fC21 f0 s
  | .xShrot0 fA fB f0 => Sys2Proof.Machine.execXShrot0 fA fB f0 s
  | .xShrot1 fA fB f0 => Sys2Proof.Machine.execXShrot1 fA fB f0 s
  | .xShrot2 fA fB f0 => Sys2Proof.Machine.execXShrot2 fA fB f0 s
  | .xShrot3 fA fB f0 => Sys2Proof.Machine.execXShrot3 fA fB f0 s

end Sys2Proof.Machine
end

