-- ==== Sys2Proof/Machine/Step.lean ====
section
/-! DEFINITION. One step: the request at the head of `pending` is answered, as one atomic step
(spec/70_reset_and_hazards.md R227). -/

namespace Sys2Proof.Machine

/-- With nothing presented the block does nothing (DEDUCED, notes/assumptions/5.md). A word at the word port that is a
word of the opcode table goes to that instruction's meaning; any other word, and any other request, is answered
directly. -/
def step (s : State) : Host.Outcome State Fault Refusal :=
  match s.pending with
  | [] => .next s
  | q :: _ =>
    match q.word? with
    | none => serve q s
    | some raw =>
      match decodeWord raw with
      | .ok i => exec i s
      | .error _ => serve q s

/-- The instruction's word presented for DECODE, in front of whatever else is presented: the block has no program
counter or memory, and the caller presents each word (R40; notes/assumptions/8.md). The word is the cell's 16 bits
unchanged, bit `i` to bit `i` (R42). Of a number of `2^16` or more the low 16 bits are presented, and `nbits` is not read
(DESIGN CHOICE, notes/assumptions/14.md). -/
def State.withFetchWord (s : State) (_nbits w : Nat) : State :=
  s.present (.decode (BitVec.ofNat 16 w))

end Sys2Proof.Machine
end

