-- ==== Sys2Proof/Machine/Caller.lean ====
section
/-! DEFINITION. What the spec writes down of the caller: the encoding procedure (spec/30_encoding.md R68), the loop that
decodes a program image (spec/95_test_vectors.md program 2; spec/60_exceptions.md R206), and a session of requests in
which a fault ends one request only (R204; spec/20_memory.md R48) and a refusal the whole run
(spec/43_isa_instructions.md R180). -/

namespace Sys2Proof.Machine

/-- R68: start from a word and REPLACE each operand into its field, each by a request to the block; a malformed field
is the block's RangeFault. -/
def assemble (mode : ReplaceOverflow) : Word → List FieldValue → Host.Outcome Word Fault Refusal
  | w, [] => .next w
  | w, f :: fs =>
    if f.range.wellFormed then assemble mode (replaceField mode w f.value f.range) fs
    else .fault (.rangeFault f.range.start f.range.last)

/-- How the image loop ends. -/
inductive ImageEnd where
  /-- Every word of the image decoded. -/
  | finished
  /-- `INVALID_WORD_POLICY = Halt`: stopped at word `k` (R206). -/
  | halted (k : Nat) (error : DecodeError)
  /-- `INVALID_WORD_POLICY = Trap`: trapped at word `k`; what follows is in no source (R206, R208). -/
  | trapped (k : Nat) (error : DecodeError)
  /-- The table fails W1 and the block has no decode (R138). -/
  | refused
deriving DecidableEq, Repr

/-- How the loop ends at an invalid word, by the policy (R206). -/
def ImageEnd.atInvalidWord (policy : InvalidWordPolicy) (k : Nat) (error : DecodeError) : ImageEnd :=
  match policy with
  | .halt => .halted k error
  | .trap => .trapped k error

/-- What the image loop emitted, and how it ended. -/
structure ImageRun where
  names : List String
  stop : ImageEnd
deriving DecidableEq, Repr

/-- The descriptor a word decodes to, if any. -/
def descriptorOf (table : List Descriptor) (raw : Word) : Option Descriptor :=
  (firstInstruction table raw).map (descriptorAt table)

/-- The loop of program 2 from word number `k` on: DECODE each word, emit its NAME, stop at the first DecodeError. -/
def decodeImageFrom (policy : InvalidWordPolicy) (table : List Descriptor) (emitted : List String) :
    Nat → List Word → ImageRun
  | _, [] => { names := emitted, stop := .finished }
  | k, w :: ws =>
    match descriptorOf table w with
    | some d => decodeImageFrom policy table (emitted ++ [d.name]) (k + 1) ws
    | none => { names := emitted, stop := .atInvalidWord policy k { code := w } }

/-- The loop of program 2 over a whole image. -/
def decodeImage (policy : InvalidWordPolicy) (table : List Descriptor) (image : List Word) : ImageRun :=
  if tableOk table then decodeImageFrom policy table [] 0 image else { names := [], stop := .refused }

/-- The response of an answer, if it is one. -/
def responseOf : Answer → Option Response
  | .next response => some response
  | .fault _ => none
  | .refused _ => none

/-- The fault of an answer, if it is one. -/
def faultOf : Answer → Option Fault
  | .next _ => none
  | .fault f => some f
  | .refused _ => none

/-- The refusal of an answer, if it is one. -/
def refusalOf : Answer → Option Refusal
  | .next _ => none
  | .fault _ => none
  | .refused r => some r

/-- A caller's session: the block's state, and the requests that ended in a fault. -/
structure Session where
  state : State
  faults : List (Request × Fault)
deriving DecidableEq, Repr

/-- The caller presents one request and takes one step. On a fault the block's state is what it was (R204), and the
caller goes on (DEDUCED, notes/assumptions/20.md). A refusal is a mark on the whole run, and the run ends in it (R180). -/
def Session.request (x : Session) (q : Request) : Except Refusal Session :=
  match step (x.state.present q) with
  | .next t => .ok { x with state := t }
  | .fault f => .ok { x with faults := x.faults ++ [(q, f)] }
  | .refused r => .error r

/-- The caller presents the requests one after the other. -/
def Session.run : Session → List Request → Except Refusal Session
  | x, [] => .ok x
  | x, q :: qs =>
    match x.request q with
    | .ok y => y.run qs
    | .error r => .error r

/-- A session from a state. -/
def session (s : State) (qs : List Request) : Except Refusal Session :=
  Session.run { state := s, faults := [] } qs

end Sys2Proof.Machine
end

