-- ==== Sys2Proof/Machine/Ports.lean ====
section
/-! DEFINITION. The four port groups as signals, and their combinational realisation
(spec/10_state.md R30-R34; spec/40_bitfield.md R106, R114; spec/41_decoder.md R132, R141; spec/42_classifier.md R168).
A signal that carries no meaning is absent, never a value (spec/93_implementation_defined.md I9). A table that fails W1
is refused as a whole (R138), so the decode and classify groups show no signal for it. -/

namespace Sys2Proof.Machine

/-- Inputs of the EXTRACT group (R30). -/
structure ExtractIn where
  xValue : Word
  xStart : Bound
  xEnd : Bound
deriving DecidableEq, Repr

/-- Outputs of the EXTRACT group (R30). -/
structure ExtractOut where
  xOut : Option Word
  xRangeErr : Bool
deriving DecidableEq, Repr

/-- Inputs of the REPLACE group (R31). -/
structure ReplaceIn where
  rValue : Word
  rBits : Word
  rStart : Bound
  rEnd : Bound
deriving DecidableEq, Repr

/-- Outputs of the REPLACE group (R31). -/
structure ReplaceOut where
  rOut : Option Word
  rRangeErr : Bool
  rOverflow : Bool
deriving DecidableEq, Repr

/-- Outputs of the DECODE group of a ROM of `n` descriptors (R32). -/
structure DecodeOut (n : Nat) where
  dValid : Bool
  dIndex : Option (IndexPort n)
  dErrCode : Option Word
deriving DecidableEq, Repr

/-- Outputs of the CLASSIFY group (R33). -/
structure ClassifyOut where
  cIndexErr : Bool
  cOpcode : Option Word
  cMask : Option Word
  cCode : Option Word
  cClass : Option (BitVec 3)
deriving DecidableEq, Repr

/-- R106: a right shifter by `x_start`, then an AND with the width mask; the range check in parallel. -/
def extractPorts (i : ExtractIn) : ExtractOut :=
  let err := rangeErr { start := i.xStart, last := i.xEnd }
  { xOut := if err then none else some ((i.xValue >>> i.xStart) &&& ones (i.xEnd.toNat - i.xStart.toNat + 1))
    xRangeErr := err }

/-- R114: the field-mask generator as bits, one exactly at positions `start` to `end`. -/
def fieldMaskBits (start last : Bound) : Word :=
  BitVec.ofBoolListLE ((List.range 16).map fun i => decide (start.toNat ≤ i ∧ i ≤ last.toNat))

/-- R114: a left shifter of `r_bits` (masked first under `Mask`), the field-mask generator and the merge; the range
check and the overflow diagnostic (R112) in parallel. -/
def replacePorts (mode : ReplaceOverflow) (i : ReplaceIn) : ReplaceOut :=
  let r : BitRange := { start := i.rStart, last := i.rEnd }
  let err := rangeErr r
  let shifted := replaceBits mode i.rBits r <<< i.rStart
  { rOut := if err then none else some ((i.rValue &&& ~~~ fieldMaskBits i.rStart i.rEnd) ||| shifted)
    rRangeErr := err
    rOverflow := replaceOverflows i.rBits r }

/-- R132: the match lines, one a descriptor. -/
def matchLines (table : List Descriptor) (raw : Word) : List Bool :=
  table.map fun d => d.matchesWord raw

/-- R132: the priority encoder, the least `i` with `m[i] = 1`. -/
def priorityEncode (lines : List Bool) : Option Nat :=
  (List.range lines.length).find? fun i => lines[i]? == some true

/-- R138: the groups that read the ROM show nothing for a table that fails W1. -/
def onRomPorts {α : Type} (table : List Descriptor) (out : α) : Except Refusal α :=
  if tableOk table then .ok out else .error .tableRefused

/-- R132: match lines, their OR, and the priority encoder; R141: each output is there only where it carries meaning. -/
def decodePorts (table : List Descriptor) (raw : Word) : Except Refusal (DecodeOut table.length) :=
  let lines := matchLines table raw
  let valid := lines.any id
  onRomPorts table
    { dValid := valid
      dIndex := if valid then (priorityEncode lines).map (BitVec.ofNat (indexWidth table.length)) else none
      dErrCode := if valid then none else some raw }

/-- R168: a read of the ROM at `c_index`; `c_opcode` is the wiring of ten zeros and `code[15:10]`, and `c_class` is
the 64-entry lookup addressed by `code[15:10]`; the index check (R160) in parallel. -/
def classifyPorts (c : Config) (index : IndexPort c.descTable.length) : Except Refusal ClassifyOut :=
  let err := indexErr c.descTable index
  onRomPorts c.descTable <|
    match c.descTable[index.toNat]? with
    | none => { cIndexErr := err, cOpcode := none, cMask := none, cCode := none, cClass := none }
    | some d =>
      let field := d.code.extractLsb' 10 6
      { cIndexErr := err
        cOpcode := some ((0#10 ++ field : BitVec 16))
        cMask := some d.mask
        cCode := some d.code
        cClass := some (c.classOf.get field.toFin).portCode }

/-- What a caller drives at one moment at a block with a ROM of `n` descriptors: any number of the groups at once
(R34). -/
structure PortIn (n : Nat) where
  x : Option ExtractIn
  r : Option ReplaceIn
  dRaw : Option Word
  cIndex : Option (IndexPort n)
deriving DecidableEq, Repr

/-- The outputs of the driven groups. -/
structure PortOut (n : Nat) where
  x : Option ExtractOut
  r : Option ReplaceOut
  d : Option (Except Refusal (DecodeOut n))
  c : Option (Except Refusal ClassifyOut)
deriving DecidableEq, Repr

/-- R34: the groups are independent; each driven group gives the outputs it gives alone. -/
def evalPorts (c : Config) (i : PortIn c.descTable.length) : PortOut c.descTable.length :=
  { x := i.x.map extractPorts
    r := i.r.map (replacePorts c.replaceOverflow)
    d := i.dRaw.map (decodePorts c.descTable)
    c := i.cIndex.map (classifyPorts c) }

end Sys2Proof.Machine
end

