-- ==== Sys2Proof/Machine/TableChecks.lean ====
section
/-! DEFINITION. Check W2 of a decode ROM (spec/41_decoder.md R139) and the facts the source fixes about every
admissible ROM, `SOURCE_OK` (spec/30_encoding.md R72, R74-R78, R80). Check W1 is `tableOk`, check W3 is
`tableCoversOpcode`, both in Machine/Rom.lean. -/

namespace Sys2Proof

/-- R139: descriptor `j` is shadowed when every word that matches it also matches some earlier descriptor. -/
def Shadowed (table : List Descriptor) (j : Nat) : Prop :=
  ∃ dj, table[j]? = some dj ∧
    ∀ raw : Word, dj.matchesWord raw = true →
      ∃ i di, i < j ∧ table[i]? = some di ∧ di.matchesWord raw = true

/-- The evaluation of W2 in R139: enumerate all `2^16` words and look for one that matches `j` and decodes to it. -/
def shadowedScan (table : List Descriptor) (j : Nat) : Bool :=
  match table[j]? with
  | none => false
  | some dj => (List.range 65536).all fun n =>
      !(dj.matchesWord (BitVec.ofNat 16 n)) || firstMatch table (BitVec.ofNat 16 n) != some j

/-- The sufficient pairwise test of R139: `di` alone shadows a later `dj`. -/
def pairShadows (di dj : Descriptor) : Bool :=
  (di.mask &&& ~~~ dj.mask) == 0 && (dj.code &&& di.mask) == di.code

/-- What start-up checks report (R224): whether W1 holds, and the entries W2 finds shadowed. A table that fails W1 is
refused (`Refusal.tableRefused`); a shadowed entry stops nothing. -/
structure StartupReport where
  admissible : Bool
  shadowed : List Nat
deriving DecidableEq, Repr

/-- The start-up checks of R224. -/
def startupCheck (table : List Descriptor) : StartupReport :=
  { admissible := tableOk table, shadowed := (List.range table.length).filter (shadowedScan table) }

/-- A row of a table: its declaration index and its descriptor. -/
structure RowAt where
  index : Nat
  desc : Descriptor
deriving DecidableEq, Repr

/-- The row stands in the table. -/
def RowAt.inTable (table : List Descriptor) (r : RowAt) : Prop :=
  table[r.index]? = some r.desc

/-- The ten rows that the source describes (R69, R79), and the low bit of the shift/rotate sub-field. -/
structure SourceRows where
  nop : RowAt
  load : RowAt
  add : RowAt
  addc : RowAt
  inc : RowAt
  dec : RowAt
  shrot0 : RowAt
  shrot1 : RowAt
  shrot2 : RowAt
  shrot3 : RowAt
  shrotBit : Nat
deriving DecidableEq, Repr

/-- The four shift/rotate rows. -/
def SourceRows.shrots (w : SourceRows) : List RowAt :=
  [w.shrot0, w.shrot1, w.shrot2, w.shrot3]

/-- All ten rows. -/
def SourceRows.rows (w : SourceRows) : List RowAt :=
  [w.nop, w.load, w.add, w.addc, w.inc, w.dec] ++ w.shrots

/-- The facts of R72 and R74 to R80 about a table, for the rows `w`. That the ten rows are distinct entries is R79's
reading, and that the sub-field lies below bit 10 is R64's (DEDUCED, notes/assumptions/13.md). -/
structure SourceFacts (table : List Descriptor) (w : SourceRows) : Prop where
  /-- T1 (R72). -/
  codesWithinMasks : tableOk table = true
  /-- The rows stand in the table. -/
  rowsInTable : ∀ r ∈ w.rows, r.inTable table
  /-- The rows are distinct entries (R79). -/
  rowsDistinct : (w.rows.map RowAt.index).Nodup
  /-- T3 (R74). -/
  nopRow : w.nop.desc.name = "NOP" ∧ w.nop.desc.code = 0x0000 ∧ w.nop.desc.coversOpcode = true
  /-- T3 (R74): NOP is the first descriptor that matches `0x0000`. -/
  nopFirst : firstMatch table 0x0000 = some w.nop.index
  /-- T4 (R75). -/
  loadName : w.load.desc.name = "LOAD"
  /-- T4 (R75): `DECODE(0xC223) = LOAD`. -/
  loadFirst : firstMatch table 0xC223 = some w.load.index
  /-- T5 (R76). -/
  addNames : w.add.desc.name = "ADD" ∧ w.addc.desc.name = "ADDC"
  /-- T5 (R76): `DECODE(0x8381) = ADDC`. -/
  addcFirst : firstMatch table 0x8381 = some w.addc.index
  /-- T5 (R76): the codes differ "solely by bit 0". -/
  addBit0 : w.add.desc.code ^^^ w.addc.desc.code = 0x0001
  /-- T6 (R77): the codes differ only in bit 3. -/
  incDecBit3 : w.inc.desc.code ^^^ w.dec.desc.code = 0x0008
  /-- T7 (R78): one common opcode. -/
  shrotOpcode : ∀ r ∈ w.shrots, r.desc.opcode = w.shrot0.desc.opcode
  /-- T7 (R78): the codes differ from each other. -/
  shrotCodesDistinct : (w.shrots.map fun r => r.desc.code).Nodup
  /-- The sub-field lies below bit 10 (R64). -/
  shrotBelowOpcode : w.shrotBit ≤ 7
  /-- T7 (R78): the codes differ only inside one 3-bit sub-field. -/
  shrotSubField : ∀ r ∈ w.shrots,
    (r.desc.code ^^^ w.shrot0.desc.code) &&& ~~~ (ones 3 <<< w.shrotBit) = 0
  /-- T8 (R80): no descriptor matches `0x2400`. -/
  unassigned : firstMatch table 0x2400 = none

/-- How the spec reads the source's encoding sentences (R71, D9). These go beyond SOURCE_OK, so a statement that uses
them takes them as a premise. -/
structure SourceReadings (w : SourceRows) : Prop where
  /-- (a) NOP's mask is exactly `0xFC00`. -/
  nopMask : w.nop.desc.mask = 0xFC00
  /-- (b) ADD and ADDC have one mask, which includes bit 0; ADD's bit 0 is clear and ADDC's set. -/
  addMasks : w.add.desc.mask = w.addc.desc.mask ∧ w.add.desc.mask.getLsbD 0 = true ∧
    w.add.desc.code.getLsbD 0 = false ∧ w.addc.desc.code.getLsbD 0 = true
  /-- (c) The masks of the descriptors the source names include bits [15:10]. -/
  namedCoverOpcode : ∀ r ∈ [w.nop, w.load, w.add, w.addc], r.desc.coversOpcode = true
  /-- (d) Increment and decrement have one mask, which includes bit 3, and one opcode. -/
  incDecMasks : w.inc.desc.mask = w.dec.desc.mask ∧ w.inc.desc.mask.getLsbD 3 = true ∧
    w.inc.desc.opcode = w.dec.desc.opcode
  /-- (e) The four shift/rotate descriptors have one mask, which includes the sub-field (their one opcode and the place
  of their difference are in SourceFacts). -/
  shrotMasks : ∀ r ∈ w.shrots, r.desc.mask = w.shrot0.desc.mask ∧
    r.desc.mask &&& (ones 3 <<< w.shrotBit) = ones 3 <<< w.shrotBit

/-- `SOURCE_OK(T)` (spec/30_encoding.md section 4). -/
def sourceOk (table : List Descriptor) : Prop :=
  ∃ w, SourceFacts table w

end Sys2Proof
end

