-- ==== Sys2Proof/Safety.lean ====
section
/-! DEFINITION. What a safe run is, and the invariant of the response record (spec/60_exceptions.md R200, R204;
spec/10_state.md R20, R34). -/

namespace Sys2Proof

open Sys2Proof.Machine

/-- The block answers the request with a value: no fault, no refusal. -/
def Request.Answered (c : Config) (q : Request) : Prop :=
  ∃ response, answer c q = .next response

/-- The step does not stop. -/
def Safe (s : State) : Prop :=
  ∃ t, step s = .next t

/-- `k` steps in a row do not stop. -/
def SafeFor (k : Nat) (s : State) : Prop :=
  ∃ t, Host.Core.run core k s = .next t

/-- Every recorded response is the one the request gets alone, from the configuration (R20, R34, R45). -/
def RecordSound (s : State) : Prop :=
  ∀ q response, (q, response) ∈ s.served → answer s.config q = .next response

end Sys2Proof
end

