-- ==== Sys2Proof/Certificates/Slice0/Obligations.lean ====
section
/-! DEFINITION. The statements for the provers. Each docstring names the rule or section of spec/ that it formalises.
The state's configuration is free in them, so a statement about every state is a statement about every decode ROM,
class map and REPLACE_OVERFLOW, unless it names `refTable` or `sourceOk`. -/

open Sys2Proof Sys2Proof.Machine

/-! ### The bit-field engine -/

/-- R104: EXTRACT's result, its only fault, its corner cases and its example. -/
def Obligations.ExtractAnswersShiftedAndMasked : Prop :=
  (∀ (s : State) (value : Word) (r : BitRange) (rest : List Request),
    s.pending = .extract value r :: rest →
      (r.start.toNat ≤ r.last.toNat ∧ r.last.toNat ≤ 15 →
        step s = .next (s.complete (.extract value r) (.extracted
          ((value >>> r.start.toNat) &&& BitVec.ofNat 16 (2 ^ (r.last.toNat - r.start.toNat + 1) - 1))))) ∧
      (¬ (r.start.toNat ≤ r.last.toNat ∧ r.last.toNat ≤ 15) →
        step s = .fault (.rangeFault r.start r.last))) ∧
  (∀ value : Word, extractField value (BitRange.ofNats 0 15) = value) ∧
  (∀ (value : Word) (i : Nat), i ≤ 15 →
    extractField value (BitRange.ofNats i i) = if value.getLsbD i then 1 else 0) ∧
  (∀ (value : Word) (r : BitRange), r.wellFormed = true → (extractField value r).toNat < 2 ^ r.width) ∧
  extractField 0b101000 (BitRange.ofNats 3 5) = 0b101

/-- 40_bitfield.md section 2, the EXTRACT laws (a) to (c). -/
def Obligations.ExtractReadsExactlyTheField : Prop :=
  ∀ (value : Word) (r : BitRange), r.wellFormed = true →
    (extractField value r).toNat < 2 ^ r.width ∧
    (r = BitRange.full → extractField value r = value) ∧
    extractField value r = (value.extractLsb' r.start.toNat r.width).setWidth 16 ∧
    ∀ i, (extractField value r).getLsbD i = (decide (i < r.width) && value.getLsbD (r.start.toNat + i))

/-- R110: REPLACE's result under either REPLACE_OVERFLOW, its only fault, its corner cases and its example. -/
def Obligations.ReplaceAnswersClearedThenSet : Prop :=
  (∀ (s : State) (value bits : Word) (r : BitRange) (rest : List Request),
    s.pending = .replace value bits r :: rest →
      (r.start.toNat ≤ r.last.toNat ∧ r.last.toNat ≤ 15 →
        let width := r.last.toNat - r.start.toNat + 1
        let onesW : Word := BitVec.ofNat 16 (2 ^ width - 1)
        let fm : Word := onesW <<< r.start.toNat
        let b : Word := if s.config.replaceOverflow = .mask then bits &&& onesW else bits
        ∃ overflow, step s = .next (s.complete (.replace value bits r)
          (.replaced ((value &&& ~~~ fm) ||| (b <<< r.start.toNat)) overflow))) ∧
      (¬ (r.start.toNat ≤ r.last.toNat ∧ r.last.toNat ≤ 15) →
        step s = .fault (.rangeFault r.start r.last))) ∧
  (∀ (mode : ReplaceOverflow) (value bits : Word), replaceField mode value bits (BitRange.ofNats 0 15) = bits) ∧
  (∀ (mode : ReplaceOverflow) (value : Word) (i : Nat), i ≤ 15 → ∀ j, j ≤ 15 →
    (replaceField mode value 1 (BitRange.ofNats i i)).getLsbD j = (decide (j = i) || value.getLsbD j) ∧
    (replaceField mode value 0 (BitRange.ofNats i i)).getLsbD j = (!decide (j = i) && value.getLsbD j)) ∧
  (∀ mode, replaceField mode 0b101000 0b11 (BitRange.ofNats 1 2) = 0b101110) ∧
  (∀ (value bits : Word) (r : BitRange), r.wellFormed = true → ∀ j, r.width ≤ j → bits.getLsbD j = true →
    r.start.toNat + j ≤ 15 → (replaceField .leak value bits r).getLsbD (r.start.toNat + j) = true)

/-- 40_bitfield.md section 3, the exact effect of REPLACE bit by bit: below the range `value`, in the range `bits`,
above it `value` with the leaked bits ORed in under Leak, and `value` under Mask. -/
def Obligations.ReplaceBitByBit : Prop :=
  ∀ (value bits : Word) (r : BitRange), r.wellFormed = true →
    (∀ p, p ≤ 15 →
      (replaceField .leak value bits r).getLsbD p =
        (if p < r.start.toNat then value.getLsbD p
         else if p ≤ r.last.toNat then bits.getLsbD (p - r.start.toNat)
         else value.getLsbD p || bits.getLsbD (p - r.start.toNat)) ∧
      (replaceField .mask value bits r).getLsbD p =
        (if r.start.toNat ≤ p ∧ p ≤ r.last.toNat then bits.getLsbD (p - r.start.toNat) else value.getLsbD p)) ∧
    replaceField .mask value bits r = replaceField .leak value (bits &&& ones r.width) r

/-- R112: the overflow diagnostic is one exactly when the range is well-formed and some bit of `bits` lies at or above
the width; it changes neither the result nor the outcome. -/
def Obligations.OverflowIsDiagnosticOnly : Prop :=
  (∀ (bits : Word) (r : BitRange),
    replaceOverflows bits r = true ↔ r.wellFormed = true ∧ ∃ j, r.width ≤ j ∧ bits.getLsbD j = true) ∧
  (∀ (s : State) (value bits : Word) (r : BitRange) (rest : List Request),
    s.pending = .replace value bits r :: rest → r.wellFormed = true →
      step s = .next (s.complete (.replace value bits r)
        (.replaced (replaceField s.config.replaceOverflow value bits r) (replaceOverflows bits r))))

/-- 40_bitfield.md section 3, the REPLACE laws (a) to (e). -/
def Obligations.ReplaceLawsHold : Prop :=
  (∀ (mode : ReplaceOverflow) (value bits : Word) (r : BitRange), r.wellFormed = true →
    (bits.toNat < 2 ^ r.width →
      extractField (replaceField mode value bits r) r = bits ∧
      replaceField mode value bits r &&& ~~~ r.fieldMask = value &&& ~~~ r.fieldMask) ∧
    extractField (replaceField mode value bits r) r = bits &&& ones r.width ∧
    (∀ p, p < r.start.toNat → (replaceField mode value bits r).getLsbD p = value.getLsbD p) ∧
    replaceField .mask value bits r &&& ~~~ r.fieldMask = value &&& ~~~ r.fieldMask) ∧
  ∃ (value bits : Word) (r : BitRange), r.wellFormed = true ∧ r.last.toNat < 15 ∧ 2 ^ r.width ≤ bits.toNat ∧
    replaceField .leak value bits r &&& ~~~ r.fieldMask ≠ value &&& ~~~ r.fieldMask

/-- R202: a malformed range is RangeFault for EXTRACT and REPLACE, whatever the other operands hold; the port's error
output is 1 and its data output carries no meaning. -/
def Obligations.MalformedRangeFaults : Prop :=
  ∀ (s : State) (value bits : Word) (r : BitRange) (rest : List Request),
    (r.last.toNat < r.start.toNat ∨ 15 < r.last.toNat) →
      (s.pending = .extract value r :: rest → step s = .fault (.rangeFault r.start r.last)) ∧
      (s.pending = .replace value bits r :: rest → step s = .fault (.rangeFault r.start r.last)) ∧
      extractPorts { xValue := value, xStart := r.start, xEnd := r.last } = { xOut := none, xRangeErr := true } ∧
      (replacePorts s.config.replaceOverflow { rValue := value, rBits := bits, rStart := r.start, rEnd := r.last }).rOut
        = none ∧
      (replacePorts s.config.replaceOverflow
        { rValue := value, rBits := bits, rStart := r.start, rEnd := r.last }).rRangeErr = true

/-- 40_bitfield.md section 1: the width is 1 to 16, and the field mask has ones exactly at `start` to `end`. -/
def Obligations.FieldMaskCoversExactlyTheRange : Prop :=
  ∀ r : BitRange, r.wellFormed = true →
    1 ≤ r.width ∧ r.width ≤ 16 ∧
    ∀ p, r.fieldMask.getLsbD p = (decide (r.start.toNat ≤ p) && decide (p ≤ r.last.toNat))

/-- 40_bitfield.md section 1: each bound style collapses to the inclusive range of the same bits, and an empty
half-open range gives `start > end`, malformed. (For an exclusive bound 0 which such pair it gives is the model's choice,
log entry 11; the clause holds for every such pair.) -/
def Obligations.BoundStylesKeepTheirBits : Prop :=
  (∀ a b : Bound, RangeForm.collapse (.inclusive a b) = { start := a, last := b }) ∧
  (∀ (a : Bound) (p : Nat), (RangeForm.collapse (.startingAt a)).covers p ↔ a.toNat ≤ p ∧ p ≤ 15) ∧
  (∀ (b : Bound) (p : Nat), (RangeForm.collapse (.through b)).covers p ↔ p ≤ b.toNat) ∧
  RangeForm.collapse .everything = BitRange.full ∧
  (∀ a b : Bound, b.toNat ≤ a.toNat →
    (RangeForm.collapse (.between a b)).last.toNat < (RangeForm.collapse (.between a b)).start.toNat ∧
    (RangeForm.collapse (.between a b)).wellFormed = false) ∧
  (∀ a b : Bound, 0 < b.toNat →
    (RangeForm.collapse (.between a b)).start = a ∧ (RangeForm.collapse (.between a b)).last.toNat = b.toNat - 1) ∧
  (∀ a b : Bound, a.toNat < b.toNat →
    ((RangeForm.collapse (.between a b)).wellFormed = true ↔ b.toNat ≤ 16) ∧
    ∀ p, (RangeForm.collapse (.between a b)).covers p ↔ a.toNat ≤ p ∧ p < b.toNat) ∧
  (∀ b : Bound, RangeForm.collapse (.upTo b) = RangeForm.collapse (.between 0 b))

/-! ### DECODE -/

/-- R131: DECODE answers the first descriptor that matches in declared order, or fails with DecodeError, and no other
fault; a zero mask hides everything after it; the empty table decodes nothing; `0x0000` decodes to NOP in every
admissible table; the example. (A table failing W1 is refused, R138. Admissible is SOURCE_OK, whose NOP fact is R74;
how the model writes its other facts down is log entry 13.) -/
def Obligations.DecodeAnswersFirstMatch : Prop :=
  (∀ (s : State) (raw : Word) (rest : List Request),
    s.pending = .decode raw :: rest → tableOk s.config.descTable = true →
      (∀ i d, s.config.descTable[i]? = some d → raw &&& d.mask = d.code →
        (∀ j dj, j < i → s.config.descTable[j]? = some dj → raw &&& dj.mask ≠ dj.code) →
          step s = .next (s.complete (.decode raw) (.decoded i))) ∧
      ((∀ d ∈ s.config.descTable, raw &&& d.mask ≠ d.code) →
        step s = .fault (.decodeError { code := raw }))) ∧
  (∀ (table : List Descriptor) (i j : Nat) (name : String) (raw : Word),
    table[i]? = some { name := name, code := 0, mask := 0 } → i < j → firstMatch table raw ≠ some j) ∧
  (∀ raw, firstMatch [] raw = none) ∧
  (∀ table, sourceOk table →
    ∃ i d, firstMatch table 0 = some i ∧ table[i]? = some d ∧ d.name = "NOP") ∧
  (firstMatch refTable 0b1100001000100011 = some 1 ∧ refTable[1]? = some loadRow)

/-- R135: the decode laws (a) to (c): identical words have one outcome, answer or fault; where descriptors match, one of
them is returned, and no earlier match is passed over for a later one; and a word that matches nothing returns
DecodeError with that word. -/
def Obligations.DecodeHonoursDeclaredPriority : Prop :=
  ∀ (s t : State) (raw : Word) (restS restT : List Request),
    s.pending = .decode raw :: restS → t.pending = .decode raw :: restT →
    s.config.descTable = t.config.descTable → tableOk s.config.descTable = true →
      (∃ a : Answer, step s = s.take (.decode raw) a ∧ step t = t.take (.decode raw) a) ∧
      (∀ i di, s.config.descTable[i]? = some di → di.matchesWord raw = true →
        ∃ k dk, k ≤ i ∧ s.config.descTable[k]? = some dk ∧ dk.matchesWord raw = true ∧
          step s = .next (s.complete (.decode raw) (.decoded k))) ∧
      (∀ i j di, i < j → s.config.descTable[i]? = some di → di.matchesWord raw = true →
        step s ≠ .next (s.complete (.decode raw) (.decoded j))) ∧
      ((∀ d ∈ s.config.descTable, d.matchesWord raw = false) →
        step s = .fault (.decodeError { code := raw }) ∧ step t = .fault (.decodeError { code := raw }))

/-- 41_decoder.md section 2: the first-match characterisation. -/
def Obligations.FirstMatchIsTheLeastMatch : Prop :=
  ∀ (table : List Descriptor) (raw : Word),
    (∀ i, firstMatch table raw = some i ↔
      (∃ d, table[i]? = some d ∧ d.matchesWord raw = true) ∧
      ∀ j dj, j < i → table[j]? = some dj → dj.matchesWord raw = false) ∧
    (firstMatch table raw = none ↔ ∀ d ∈ table, d.matchesWord raw = false)

/-- 41_decoder.md section 2: DECODE is total, an index below N or a DecodeError for every word, never a refusal, for
every table that passes W1. -/
def Obligations.DecodeIsTotal : Prop :=
  ∀ (s : State) (raw : Word) (rest : List Request),
    s.pending = .decode raw :: rest → tableOk s.config.descTable = true →
      (∃ i, i < s.config.descTable.length ∧ step s = .next (s.complete (.decode raw) (.decoded i))) ∨
      step s = .fault (.decodeError { code := raw })

/-- R134: DECODE's result is a function of the word and the table alone: two states that agree on the table give the
same answer, whatever else they hold. -/
def Obligations.DecodeDependsOnWordAndTableOnly : Prop :=
  ∀ (s t : State) (raw : Word) (restS restT : List Request),
    s.pending = .decode raw :: restS → t.pending = .decode raw :: restT →
    s.config.descTable = t.config.descTable →
      ∃ a : Answer,
        step s = s.take (.decode raw) a ∧ step t = t.take (.decode raw) a

/-- 41_decoder.md section 2: for a table that passes W1 the match lines and the priority encoder compute exactly the
in-order scan, its index fits the `IDX_W` bits of `d_index`, and each output is there only where it carries meaning. -/
def Obligations.PriorityEncoderComputesTheScan : Prop :=
  ∀ (table : List Descriptor) (raw : Word), tableOk table = true →
    ∃ out, decodePorts table raw = .ok out ∧
      match firstMatch table raw with
      | some i => out.dValid = true ∧ out.dIndex.map BitVec.toNat = some i ∧ out.dErrCode = none
      | none => out = { dValid := false, dIndex := none, dErrCode := some raw }

/-- 41_decoder.md section 1 and 30_encoding.md section 4: under the descriptor invariant a match is a bitwise
comparison at the ones of the mask; a descriptor that breaks the invariant matches no word. -/
def Obligations.MatchComparesTheMaskedBits : Prop :=
  ∀ (d : Descriptor) (raw : Word),
    (d.codeWithinMask = true →
      (d.matchesWord raw = true ↔ ∀ k, k < 16 → d.mask.getLsbD k = true → raw.getLsbD k = d.code.getLsbD k)) ∧
    (d.codeWithinMask = false → d.matchesWord raw = false)

/-- 41_decoder.md section 2: declaration order decides, so descriptors declared later change no word that an earlier
one matches, and are reached by the other words with their index moved up. -/
def Obligations.LaterDescriptorsNeverOverride : Prop :=
  ∀ (table more : List Descriptor) (raw : Word),
    firstMatch (table ++ more) raw =
      match firstMatch table raw with
      | some i => some i
      | none => (firstMatch more raw).map (· + table.length)

/-- 41_decoder.md section 3, check W2: a shadowed descriptor is never returned, the enumeration of all words finds
exactly the shadowed ones, the start-up check (70_reset_and_hazards.md section 2) reports exactly them, and the pairwise
test is sufficient. -/
def Obligations.ShadowedDescriptorsAreNeverReturned : Prop :=
  ∀ (table : List Descriptor) (j : Nat),
    (Shadowed table j → ∀ raw, firstMatch table raw ≠ some j) ∧
    (shadowedScan table j = true ↔ Shadowed table j) ∧
    (j ∈ (startupCheck table).shadowed ↔ Shadowed table j) ∧
    (∀ i di dj, i < j → table[i]? = some di → table[j]? = some dj → pairShadows di dj = true → Shadowed table j)

/-- 41_decoder.md section 3, check W3: when every mask covers the opcode field, the opcode of the decoded instruction
is the word's own opcode field. -/
def Obligations.CoveredOpcodeIsTheWordsOpcode : Prop :=
  ∀ (table : List Descriptor) (raw : Word) (i : Nat) (d : Descriptor),
    tableCoversOpcode table = true → firstMatch table raw = some i → table[i]? = some d →
      d.opcode = (raw.extractLsb' 10 6).setWidth 16

/-- R201: DecodeError is raised when no descriptor matches, with the raw word as its record, and the port shows it;
EXTRACT, REPLACE and the accessors never raise it. -/
def Obligations.DecodeErrorCarriesTheRawWord : Prop :=
  (∀ (c : Config) (raw : Word), tableOk c.descTable = true → (∀ d ∈ c.descTable, d.matchesWord raw = false) →
    answer c (.decode raw) = .fault (.decodeError { code := raw }) ∧
    decodePorts c.descTable raw = .ok { dValid := false, dIndex := none, dErrCode := some raw }) ∧
  (∀ (c : Config) (q : Request) (e : DecodeError), answer c q = .fault (.decodeError e) →
    q.word? = some e.code ∧ ∀ d ∈ c.descTable, d.matchesWord e.code = false)

/-- R138: a table that fails W1 is refused as a whole: there is no decode and no accessor for it, by request or at the
ports. (That the bit-field requests, which read no table, are still answered is the model's reading, log entry 9.) -/
def Obligations.TableFailingW1IsRefused : Prop :=
  ∀ (s : State) (q : Request) (rest : List Request),
    s.pending = q :: rest → (∃ d ∈ s.config.descTable, d.code &&& d.mask ≠ d.code) →
      tableOk s.config.descTable = false ∧
      (∀ raw, decodePorts s.config.descTable raw = .error .tableRefused) ∧
      (∀ index, classifyPorts s.config index = .error .tableRefused) ∧
      (step s = .refused .tableRefused ∨
        (∃ value r, q = .extract value r) ∨ (∃ value bits r, q = .replace value bits r))

/-! ### Encoding -/

/-- 30_encoding.md section 2 and 41_decoder.md section 4: a word assembled for a descriptor matches it, is the same
under either REPLACE_OVERFLOW, and decodes to it exactly when no earlier descriptor matches. -/
def Obligations.AssembledWordMatchesItsDescriptor : Prop :=
  ∀ (table : List Descriptor) (i : Nat) (d : Descriptor) (fs : List FieldValue),
    table[i]? = some d → d.codeWithinMask = true → fieldsWellFormed d fs = true →
      ∃ w, (∀ mode, assemble mode d.code fs = .next w) ∧ d.matchesWord w = true ∧
        (firstMatch table w = some i ↔ ∀ j dj, j < i → table[j]? = some dj → dj.matchesWord w = false)

/-- opcode_table.json: decoding an instruction's word gives the instruction back, with every operand. -/
def Obligations.DecodeOfEncode : Prop :=
  ∀ i : Instr, i.wf = true → decodeWord (encode i) = .ok i

/-- opcode_table.json: a word that decodes is the word of the instruction it decodes to. -/
def Obligations.EncodeOfDecode : Prop :=
  ∀ (raw : Word) (i : Instr), decodeWord raw = .ok i → encode i = raw

/-- 30_encoding.md section 7 and 41_decoder.md section 2: reading the opcode table's fixed bits by hand and scanning
REF_TABLE give the same instruction for every word. -/
def Obligations.OpcodeTableDecoderAgreesWithRomScan : Prop :=
  ∀ raw : Word,
    firstMatch refTable raw = (decodeWord raw).toOption.map Instr.row ∧
    (decodePorts refTable raw).toOption.map DecodeOut.dValid = some (decodeWord raw).isOk

/-- 30_encoding.md section 3, 43_isa_instructions.md and 95_test_vectors.md: words written out from the spec's
encodings decode to the instructions they stand for. -/
def Obligations.WrittenWordsDecode : Prop :=
  decodeWord 0b000000_000_000_000_0 = .ok (.nop 0 0 0 0) ∧
  decodeWord 0b110000_100_010_001_1 = .ok (.load 4 2 1 1) ∧
  decodeWord 0b100000_111_000_000_0 = .ok (.add 7 0 0) ∧
  decodeWord 0b100000_111_000_000_1 = .ok (.addc 7 0 0) ∧
  decodeWord 0b100010_000_000_000_0 = .ok (.xInc 0 0 0 0) ∧
  decodeWord 0b100010_000_000_100_0 = .ok (.xDec 0 0 0 0) ∧
  decodeWord 0b100100_000_000_011_0 = .ok (.xShrot3 0 0 0) ∧
  decodeWord 0b001001_000_000_000_0 = .error { code := 0x2400 }

/-- 30_encoding.md section 1: with the same operands, ADD and ADDC differ only in bit 0, increment and decrement only
in bit 3, and the four shift/rotate words share their opcode and differ only in bits [3:1], which hold 0 to 3
(positions and values of REF_TABLE). -/
def Obligations.FamilyMembersDifferInTheirSubField : Prop :=
  (∀ fA fB fC, encode (.add fA fB fC) ^^^ encode (.addc fA fB fC) = 0x0001) ∧
  (∀ fA fB fC21 f0, encode (.xInc fA fB fC21 f0) ^^^ encode (.xDec fA fB fC21 f0) = 0x0008) ∧
  (∀ fA fB f0,
    encode (.xShrot0 fA fB f0) ^^^ encode (.xShrot1 fA fB f0) = 0x0002 ∧
    encode (.xShrot0 fA fB f0) ^^^ encode (.xShrot2 fA fB f0) = 0x0004 ∧
    encode (.xShrot0 fA fB f0) ^^^ encode (.xShrot3 fA fB f0) = 0x0006) ∧
  (∀ fA fB f0,
    extractField (encode (.xShrot0 fA fB f0)) fCRange = 0 ∧ extractField (encode (.xShrot1 fA fB f0)) fCRange = 1 ∧
    extractField (encode (.xShrot2 fA fB f0)) fCRange = 2 ∧ extractField (encode (.xShrot3 fA fB f0)) fCRange = 3)

/-- 30_encoding.md section 4 (lower bound on N): an admissible table has at least ten entries. That the ten rows are
distinct is the model's reading of SOURCE_OK, log entry 13 (DEDUCED). -/
def Obligations.AdmissibleTableHasTenRows : Prop :=
  ∀ table, sourceOk table → 10 ≤ table.length

/-- 30_encoding.md section 4: in every state with an admissible table, the source's four scenario words classify as
NOP, LOAD, ADDC and DecodeError. -/
def Obligations.ScenarioWordsInEveryAdmissibleTable : Prop :=
  ∀ s : State, sourceOk s.config.descTable →
    (∃ i info, info.name = "NOP" ∧ info.code = 0 ∧
      step (s.present (.classifyWord 0x0000)) =
        .next ((s.present (.classifyWord 0x0000)).complete (.classifyWord 0x0000) (.classifiedWord i info))) ∧
    (∃ i info, info.name = "LOAD" ∧ info.code = 0xC223 &&& info.mask ∧
      step (s.present (.classifyWord 0xC223)) =
        .next ((s.present (.classifyWord 0xC223)).complete (.classifyWord 0xC223) (.classifiedWord i info))) ∧
    (∃ i info, info.name = "ADDC" ∧ info.code = 0x8381 &&& info.mask ∧
      step (s.present (.classifyWord 0x8381)) =
        .next ((s.present (.classifyWord 0x8381)).complete (.classifyWord 0x8381) (.classifiedWord i info))) ∧
    step (s.present (.classifyWord 0x2400)) = .fault (.decodeError { code := 0x2400 })

/-- 30_encoding.md sections 3 and 4: under the spec's readings of the source's sentences, the opcodes of NOP, LOAD, ADD
and ADDC are fixed in every admissible table, increment and decrement share one, and so do the shift/rotate rows. -/
def Obligations.ReadingsFixTheOpcodes : Prop :=
  ∀ (table : List Descriptor) (w : SourceRows), SourceFacts table w → SourceReadings w →
    w.nop.desc.opcode = 0x00 ∧ w.load.desc.opcode = 0x30 ∧ w.add.desc.opcode = 0x20 ∧ w.addc.desc.opcode = 0x20 ∧
    w.inc.desc.opcode = w.dec.desc.opcode ∧ (∀ r ∈ w.shrots, r.desc.opcode = w.shrot0.desc.opcode) ∧
    w.addc.desc.code = w.add.desc.code ||| 0x0001 ∧ w.add.desc.mask &&& 0xFC01 = 0xFC01

/-- 30_encoding.md section 7 and 95_test_vectors.md section 2.3: REF_TABLE meets SOURCE_OK with the readings, W1 and W3,
no entry of it is shadowed, and its index port is 4 bits wide. -/
def Obligations.ReferenceTableIsAdmissible : Prop :=
  (∃ w, SourceFacts refTable w ∧ SourceReadings w) ∧ tableOk refTable = true ∧ tableCoversOpcode refTable = true ∧
  refTable.length = 10 ∧ indexWidth refTable.length = 4 ∧ ∀ j, ¬ Shadowed refTable j

/-! ### The classifier -/

/-- R161: OPCODE is bits 15 to 10 of the defining code, zero-extended, whatever the mask, and can differ from the
decoded word's when the mask does not cover them; the example. -/
def Obligations.OpcodeAnswersTheCodesTopBits : Prop :=
  (∀ (s : State) (i : Nat) (d : Descriptor) (rest : List Request),
    s.pending = .opcode i :: rest → tableOk s.config.descTable = true → s.config.descTable[i]? = some d →
      step s = .next (s.complete (.opcode i) (.opcode ((d.code.extractLsb' 10 6).setWidth 16)))) ∧
  (∀ d : Descriptor, d.opcode = (d.code.extractLsb' 10 6).setWidth 16 ∧ d.opcode.toNat ≤ 63 ∧
    ∀ k, 6 ≤ k → d.opcode.getLsbD k = false) ∧
  (∃ (d : Descriptor) (raw : Word), d.codeWithinMask = true ∧ d.matchesWord raw = true ∧
    d.opcode ≠ (raw.extractLsb' 10 6).setWidth 16) ∧
  answer refConfig (.opcode 3) = .next (.opcode 0x0020)

/-- R163 and R165: MASK and NAME read the descriptor, in every state and for every index below N, and NAME is the
function on Instructions that reads the descriptor's name. -/
def Obligations.MaskAndNameAnswerTheDescriptor : Prop :=
  (∀ (s : State) (i : Nat) (d : Descriptor) (rest : List Request),
    tableOk s.config.descTable = true → s.config.descTable[i]? = some d →
      (s.pending = .mask i :: rest → step s = .next (s.complete (.mask i) (.mask d.mask))) ∧
      (s.pending = .name i :: rest → step s = .next (s.complete (.name i) (.name d.name)))) ∧
  (∀ (table : List Descriptor) (i : Instruction table) (d : Descriptor), table[i.val]? = some d →
    nameOf table i = d.name) ∧
  answer refConfig (.mask 2) = .next (.mask 0xFC01) ∧
  answer refConfig (.name 3) = .next (.name "ADDC")

/-- 42_classifier.md, CODE: it reads the descriptor's code, which lies within the mask, matches its own descriptor, and
decodes back to it exactly when no earlier descriptor matches it. -/
def Obligations.CodeAnswersAndDecodesBack : Prop :=
  ∀ (s : State) (i : Nat) (d : Descriptor) (rest : List Request),
    tableOk s.config.descTable = true → s.config.descTable[i]? = some d →
      (s.pending = .code i :: rest → step s = .next (s.complete (.code i) (.code d.code))) ∧
      d.code &&& d.mask = d.code ∧
      (s.pending = .decode d.code :: rest →
        (step s = .next (s.complete (.decode d.code) (.decoded i)) ↔
          ∀ j dj, j < i → s.config.descTable[j]? = some dj → dj.matchesWord d.code = false))

/-- 42_classifier.md, CLASS and the opcode families: CLASS is the map at the opcode, and descriptors whose codes share
bits 15 to 10 have one OPCODE and one CLASS, whatever their masks and the map. -/
def Obligations.ClassFollowsTheOpcodeFamily : Prop :=
  (∀ (s : State) (i : Nat) (d : Descriptor) (rest : List Request),
    s.pending = .classOf i :: rest → tableOk s.config.descTable = true → s.config.descTable[i]? = some d →
      step s = .next (s.complete (.classOf i)
        (.instrClass (s.config.classOf.get (d.code.extractLsb' 10 6).toFin)))) ∧
  (∀ d e : Descriptor, d.opcode = e.opcode ↔ d.code.extractLsb' 10 6 = e.code.extractLsb' 10 6) ∧
  (∀ (classes : Vector InstrClass 64) (d e : Descriptor),
    d.opcode = e.opcode → d.instrClass classes = e.instrClass classes)

/-- R26: the port's class codes are 0 to 4 and 7, distinct, and 5 and 6 are never produced. -/
def Obligations.ClassPortCodes : Prop :=
  InstrClass.portCode .dataManipulation = 0 ∧ InstrClass.portCode .arithmetic = 1 ∧
  InstrClass.portCode .logic = 2 ∧ InstrClass.portCode .control = 3 ∧ InstrClass.portCode .io = 4 ∧
  InstrClass.portCode .unclassified = 7 ∧
  (∀ k : InstrClass, k.portCode ≠ 5 ∧ k.portCode ≠ 6) ∧
  (∀ k l : InstrClass, k.portCode = l.portCode → k = l)

/-- 60_exceptions.md section 1 (IndexFault): an index that the port carries and that is not below N is IndexFault with
that index, for each accessor of the CLASSIFY port, and the port's other outputs carry no meaning. (NAME has no port and
a wider number is no `c_index`: log entry 10, and UnpresentableIndexIsRefused.) -/
def Obligations.IndexOutOfTableFaults : Prop :=
  ∀ (s : State) (index : IndexPort s.config.descTable.length) (rest : List Request) (q : Request),
    tableOk s.config.descTable = true → s.config.descTable.length ≤ index.toNat →
    q ∈ [Request.opcode index.toNat, .mask index.toNat, .code index.toNat, .classOf index.toNat, .classify index.toNat] →
    s.pending = q :: rest →
      step s = .fault (.indexFault index.toNat) ∧
      classifyPorts s.config index =
        .ok { cIndexErr := true, cOpcode := none, cMask := none, cCode := none, cClass := none }

/-- R160: where N is not a power of two the port can hold a number that is no Instruction, which shows `c_index_err` and
is IndexFault with no other output; on the typed interface, where an Instruction is `Fin N`, the check cannot fail. -/
def Obligations.IndexCheckFailsOnlyAtTheRawPort : Prop :=
  (∀ n : Nat, (∀ k, n ≠ 2 ^ k) → ∃ index : IndexPort n, n ≤ index.toNat) ∧
  (∀ (c : Config) (index : IndexPort c.descTable.length), tableOk c.descTable = true →
    c.descTable.length ≤ index.toNat →
      answer c (.classify index.toNat) = .fault (.indexFault index.toNat) ∧
      classifyPorts c index =
        .ok { cIndexErr := true, cOpcode := none, cMask := none, cCode := none, cClass := none }) ∧
  (∀ (c : Config) (i : Instruction c.descTable), tableOk c.descTable = true →
    answer c (.classify i.val) = .next (.classified (classification c i)) ∧
    answer c (.name i.val) = .next (.name (nameOf c.descTable i)) ∧
    ∃ index : IndexPort c.descTable.length, index.toNat = i.val ∧ indexErr c.descTable index = false)

/-- 10_state.md sections 1 and 3: with a table that passes W1, a request is well-formed exactly when its index fits its
port, or is an Instruction where there is no port; otherwise it is no request of the block, and is refused by name (the
model's choice, log entry 10). A well-formed request is refused only where it asks for execution. -/
def Obligations.UnpresentableIndexIsRefused : Prop :=
  ∀ (c : Config) (q : Request), tableOk c.descTable = true →
    (q.wf c.descTable.length = false →
      ∃ index, c.descTable.length ≤ index ∧
        (answer c q = .refused (.indexNotCarried index) ∧ 2 ^ indexWidth c.descTable.length ≤ index ∨
          answer c q = .refused (.notAnInstruction index) ∧ q ∈ [.name index, .executeInstr index])) ∧
    (q.wf c.descTable.length = true →
      ∀ r, answer c q = .refused r →
        ∃ i : Instruction c.descTable, r = .executionNotInSource (nameOf c.descTable i) ∧
          (q = .executeInstr i.val ∨ ∃ raw, q = .execute raw ∧ firstInstruction c.descTable raw = some i))

/-- 00_scope.md section 3: `IDX_W` is at least 1, holds every index of the table, and is the least width that does. -/
def Obligations.IndexWidthHoldsEveryIndex : Prop :=
  ∀ n : Nat, 1 ≤ indexWidth n ∧ (∀ i, i < n → i < 2 ^ indexWidth n) ∧
    ∀ w, 1 ≤ w → n ≤ 2 ^ w → indexWidth n ≤ w

/-- R143: CLASSIFY_WORD is DECODE followed by the accessors on the index it gives; a DecodeError passes through
unchanged. -/
def Obligations.ClassifyWordIsDecodeThenClassify : Prop :=
  ∀ (s : State) (raw : Word) (rest : List Request),
    s.pending = .classifyWord raw :: rest →
      (∀ i, answer s.config (.decode raw) = .next (.decoded i) →
        ∃ op m co na cl,
          answer s.config (.opcode i) = .next (.opcode op) ∧ answer s.config (.mask i) = .next (.mask m) ∧
          answer s.config (.code i) = .next (.code co) ∧ answer s.config (.name i) = .next (.name na) ∧
          answer s.config (.classOf i) = .next (.instrClass cl) ∧
          answer s.config (.classify i) =
            .next (.classified { opcode := op, mask := m, code := co, name := na, instrClass := cl }) ∧
          step s = .next (s.complete (.classifyWord raw)
            (.classifiedWord i { opcode := op, mask := m, code := co, name := na, instrClass := cl }))) ∧
      (∀ f, answer s.config (.decode raw) = .fault f → step s = .fault f)

/-! ### The port groups -/

/-- 10_state.md section 3, the EXTRACT and REPLACE groups with their realisation in 40_bitfield.md: the signals are
those of the request's answer, and the error output is 1 exactly when the request faults. (That `r_overflow` is 0 beside
`r_range_err = 1` is the model's reading, log entry 16.) -/
def Obligations.BitfieldPortsAgreeWithRequests : Prop :=
  ∀ (c : Config) (value bits : Word) (r : BitRange),
    (extractPorts { xValue := value, xStart := r.start, xEnd := r.last } =
      match answer c (.extract value r) with
      | .next (.extracted out) => { xOut := some out, xRangeErr := false }
      | _ => { xOut := none, xRangeErr := true }) ∧
    (replacePorts c.replaceOverflow { rValue := value, rBits := bits, rStart := r.start, rEnd := r.last } =
      match answer c (.replace value bits r) with
      | .next (.replaced out overflow) => { rOut := some out, rRangeErr := false, rOverflow := overflow }
      | _ => { rOut := none, rRangeErr := true, rOverflow := false })

/-- 10_state.md section 3 and 42_classifier.md: for a table that passes W1, the CLASSIFY group's wiring gives the
CLASSIFY request's answer, with the class as its port code. -/
def Obligations.ClassifyPortsAgreeWithRequests : Prop :=
  ∀ (c : Config) (index : IndexPort c.descTable.length), tableOk c.descTable = true →
    classifyPorts c index = .ok
      (match answer c (.classify index.toNat) with
      | .next (.classified info) =>
        { cIndexErr := false, cOpcode := some info.opcode, cMask := some info.mask, cCode := some info.code,
          cClass := some info.instrClass.portCode }
      | _ => { cIndexErr := true, cOpcode := none, cMask := none, cCode := none, cClass := none })

/-! ### The ISA instructions -/

/-- R180: execution of every Instruction is refused with its name, for every table, whether it is named by its index (a
shadowed one too) or by a word that decodes to it; for the opcode table's instructions the refusal comes from the
instruction's own meaning; no EXECUTE is ever answered, and the refusal is the outcome of the whole run. -/
def Obligations.ExecutionIsRefusedByName : Prop :=
  (∀ (s : State) (w raw : Word) (rest : List Request) (k : Nat) (d : Descriptor),
    s.pending = .execute w :: rest → tableOk s.config.descTable = true →
    firstMatch s.config.descTable raw = some k → s.config.descTable[k]? = some d →
      (w = raw → step s = .refused (.executionNotInSource d.name)) ∧
      (∀ i : Instr, encode i = raw → exec i s = .refused (.executionNotInSource d.name))) ∧
  (∀ (s : State) (k : Nat) (d : Descriptor) (rest : List Request),
    s.pending = .executeInstr k :: rest → tableOk s.config.descTable = true → s.config.descTable[k]? = some d →
      step s = .refused (.executionNotInSource d.name)) ∧
  (∀ (c : Config) (raw : Word) (response : Response), answer c (.execute raw) ≠ .next response) ∧
  (∀ (c : Config) (k : Nat) (response : Response), answer c (.executeInstr k) ≠ .next response) ∧
  (∀ (s : State) (n : Nat) (r : Refusal), step s = .refused r → Host.Core.run core (n + 1) s = .refused r)

/-- 43_isa_instructions.md: with REF_TABLE configured and no other question asked about the word, each of NOP, LOAD,
ADD, ADDC, X_INC, X_DEC and X_SHROT0 to X_SHROT3, at every operand, is identified by its own index. -/
def Obligations.EveryInstructionIsIdentified : Prop :=
  ∀ (i : Instr) (s : State), s.config.descTable = refTable →
    (∀ w rest, s.pending ≠ .classifyWord w :: rest ∧ s.pending ≠ .execute w :: rest) →
      exec i s = .next (s.complete (.decode (encode i)) (.decoded i.row))

/-- 43_isa_instructions.md and 42_classifier.md: with REF_TABLE configured and CLASSIFY_WORD asked, each instruction at
every operand is answered with its index and its row's opcode, mask, code, name and class. -/
def Obligations.EveryInstructionIsClassified : Prop :=
  ∀ (i : Instr) (s : State) (w : Word) (rest : List Request), s.config.descTable = refTable →
    s.pending = .classifyWord w :: rest →
      exec i s = .next (s.complete (.classifyWord (encode i)) (.classifiedWord i.row
        { opcode := i.descriptor.code >>> 10, mask := i.descriptor.mask, code := i.descriptor.code,
          name := i.descriptor.name,
          instrClass := s.config.classOf.get (i.descriptor.code.extractLsb' 10 6).toFin }))

/-- 41_decoder.md and 43_isa_instructions.md, any supplied table that passes W1: an instruction's word is identified by
the first descriptor that matches it, and raises DecodeError exactly when none does. -/
def Obligations.InstructionsUnderASuppliedTable : Prop :=
  ∀ (i : Instr) (s : State) (w : Word) (rest : List Request), s.pending = .decode w :: rest →
    tableOk s.config.descTable = true →
      (∀ k, firstMatch s.config.descTable (encode i) = some k →
        exec i s = .next (s.complete (.decode (encode i)) (.decoded k))) ∧
      (firstMatch s.config.descTable (encode i) = none →
        exec i s = .fault (.decodeError { code := encode i }))

/-- 10_state.md sections 1 and 3: the frame of every instruction. When its meaning goes on, the configuration is
unchanged, one request leaves the pending ones, and one response is recorded, the one the block gives to the question
asked about the instruction's word. -/
def Obligations.EveryInstructionFrame : Prop :=
  ∀ (i : Instr) (s t : State), exec i s = .next t →
    t.config = s.config ∧ t.pending = s.pending.tail ∧
    ∃ response, t.served = s.served ++ [(s.ask (encode i), response)] ∧
      answer s.config (s.ask (encode i)) = .next response

/-! ### The machine -/

/-- 43_isa_instructions.md and 41_decoder.md: a step on a word that the opcode table decodes runs that instruction, and
the word placed for the next step is such a word. -/
def Obligations.StepRunsTheDecodedInstruction : Prop :=
  (∀ (s : State) (q : Request) (rest : List Request) (raw : Word) (i : Instr),
    s.pending = q :: rest → q.word? = some raw → decodeWord raw = .ok i → step s = exec i s) ∧
  (∀ (s : State) (nbits w : Nat) (i : Instr),
    decodeTableWord nbits w = some i → step (s.withFetchWord nbits w) = exec i (s.withFetchWord nbits w))

/-- 43_isa_instructions.md and 70_reset_and_hazards.md: one step answers the head request, one atomic step a request;
words in and outside the opcode table get the same decode semantics. With nothing presented the state stays (the
model's reading, log entry 5). -/
def Obligations.StepAnswersTheHeadRequest : Prop :=
  ∀ s : State, (s.pending = [] → step s = .next s) ∧
    ∀ q rest, s.pending = q :: rest →
      step s = s.take q (answer s.config q)

/-- 60_exceptions.md sections 1 and 2: a request raises only its own fault: the word requests DecodeError, EXTRACT and
REPLACE RangeFault, the accessors of the CLASSIFY port IndexFault, and NAME and EXECUTE of an Instruction none; the
STATUS number of each outcome follows. -/
def Obligations.EachRequestHasOneFaultKind : Prop :=
  ∀ (c : Config) (q : Request),
    (∀ f, answer c q = .fault f →
      match q with
      | .extract _ r => f = .rangeFault r.start r.last ∧ statusOf (answer c q) = some 2
      | .replace _ _ r => f = .rangeFault r.start r.last ∧ statusOf (answer c q) = some 2
      | .decode raw => f = .decodeError { code := raw } ∧ statusOf (answer c q) = some 1
      | .classifyWord raw => f = .decodeError { code := raw } ∧ statusOf (answer c q) = some 1
      | .execute raw => f = .decodeError { code := raw } ∧ statusOf (answer c q) = some 1
      | .opcode i => f = .indexFault i ∧ statusOf (answer c q) = some 3
      | .mask i => f = .indexFault i ∧ statusOf (answer c q) = some 3
      | .code i => f = .indexFault i ∧ statusOf (answer c q) = some 3
      | .name _ => False
      | .executeInstr _ => False
      | .classOf i => f = .indexFault i ∧ statusOf (answer c q) = some 3
      | .classify i => f = .indexFault i ∧ statusOf (answer c q) = some 3) ∧
    (∀ response, answer c q = .next response → statusOf (answer c q) = some 0)

/-- 10_state.md sections 1 and 4: every recorded response stays the one its request gets alone. -/
def Obligations.RecordStaysSound : Prop :=
  ∀ s t : State, RecordSound s → step s = .next t → RecordSound t

/-- The record is sound at reset, where nothing is recorded. -/
def Obligations.ResetRecordIsSound : Prop :=
  RecordSound State.reset

/-- 10_state.md section 5 and 70_reset_and_hazards.md section 1: at reset nothing is presented or answered, and the
configuration is the spec's reference one (the model's choice, log entries 1 to 3). -/
def Obligations.ResetState : Prop :=
  State.reset.pending = [] ∧ State.reset.served = [] ∧ State.reset.config.descTable = refTable ∧
  State.reset.config.classOf = refClass ∧ State.reset.config.replaceOverflow = .leak

/-- R221: the decode ROM, the name ROM and the class map never change, over any number of steps. -/
def Obligations.ConfigurationNeverChanges : Prop :=
  ∀ (k : Nat) (s t : State), Host.Core.run core k s = .next t → t.config = s.config

/-- R45: no request changes any later response: whatever was answered before, a request gets the same response again,
or the same fault or refusal. -/
def Obligations.RepeatedRequestsGetTheSameResponse : Prop :=
  ∀ (k : Nat) (s t : State) (q : Request), Host.Core.run core k s = .next t →
    (∀ response, step (s.present q) = .next ((s.present q).complete q response) ↔
      step (t.present q) = .next ((t.present q).complete q response)) ∧
    (∀ f, step (s.present q) = .fault f ↔ step (t.present q) = .fault f) ∧
    (∀ r, step (s.present q) = .refused r ↔ step (t.present q) = .refused r)

/-- R204: faults leave nothing behind. In a session without a refusal every request, whatever faulted before it, gets
the answer it gets alone: the responses and the faults are those of the requests one by one, in order, and neither the
configuration nor what was pending changes. A refused request ends the whole run in its refusal (R180). How a session
goes on and ends is the model's reading, log entry 20. -/
def Obligations.SessionAnswersEachRequestAlone : Prop :=
  ∀ (s : State) (qs : List Request),
    ((∀ q ∈ qs, refusalOf (answer s.config q) = none) →
      ∃ x, session s qs = .ok x ∧ x.state.config = s.config ∧ x.state.pending = s.pending ∧
        x.state.served = s.served ++ qs.filterMap (fun q => (responseOf (answer s.config q)).map (q, ·)) ∧
        x.faults = qs.filterMap (fun q => (faultOf (answer s.config q)).map (q, ·))) ∧
    (∀ r, session s qs = .error r ↔ (qs.filterMap fun q => refusalOf (answer s.config q)).head? = some r)

/-- R48: a set of requests issued in any order gives each request the same response or fault, and a run that no refusal
ends is ended by none in another order. -/
def Obligations.RequestOrderDoesNotMatter : Prop :=
  ∀ (s : State) (qs qs' : List Request) (x : Session), qs.Perm qs' → session s qs = .ok x →
    ∃ y, session s qs' = .ok y ∧ x.state.served.Perm y.state.served ∧ x.faults.Perm y.faults ∧
      x.state.config = y.state.config

/-- 70_reset_and_hazards.md section 3: when the block answers every pending request, as many steps as there are
requests answer them all, in order, each with its own response, and nothing stays pending. -/
def Obligations.EveryPendingRequestIsAnswered : Prop :=
  ∀ s : State, (∀ q ∈ s.pending, q.Answered s.config) →
    ∃ t, Host.Core.run core s.pending.length s = .next t ∧ t.pending = [] ∧ t.config = s.config ∧
      ∃ answered, t.served = s.served ++ answered ∧ answered.map Prod.fst = s.pending ∧
        ∀ q response, (q, response) ∈ answered → answer s.config q = .next response

/-- 60_exceptions.md section 1 and 95_test_vectors.md program 2: the caller's loop emits the names of the words before
the first invalid one and stops there with its position and word under Halt; with no invalid word it finishes. (That
under Trap the loop stops at the same place and goes no further is the model's choice, log entry 17: no source says
what follows.) -/
def Obligations.ImageLoopStopsAtFirstInvalidWord : Prop :=
  ∀ (policy : InvalidWordPolicy) (table : List Descriptor) (good rest : List Word) (bad : Word),
    tableOk table = true → (∀ w ∈ good, firstMatch table w ≠ none) →
      let names := good.filterMap fun w => (descriptorOf table w).map Descriptor.name
      names.length = good.length ∧
      decodeImage policy table good = { names := names, stop := .finished } ∧
      (firstMatch table bad = none →
        decodeImage .halt table (good ++ bad :: rest) =
          { names := names, stop := .halted good.length { code := bad } } ∧
        decodeImage .trap table (good ++ bad :: rest) =
          { names := names, stop := .trapped good.length { code := bad } })
end

