-- ==== Sys2Proof/Laws/Operands.lean ====
section
/-! SUPPORT. Small lemmas of ranges, masks and the status outputs. -/

namespace Sys2Proof

theorem BitRange.wellFormed_iff (r : BitRange) :
    r.wellFormed = true ↔ r.start.toNat ≤ r.last.toNat ∧ r.last.toNat ≤ 15 := by
  simp [BitRange.wellFormed]

/-- The error output is the negation of the range check. -/
theorem rangeErr_eq_not_wellFormed (r : BitRange) : rangeErr r = !r.wellFormed := by
  rw [Bool.eq_iff_iff]
  simp only [rangeErr, BitRange.wellFormed, Bool.or_eq_true, Bool.not_eq_true', Bool.and_eq_false_iff,
    decide_eq_true_eq, decide_eq_false_iff_not]
  omega

theorem BitRange.width_pos (r : BitRange) : 0 < r.width := Nat.succ_pos _

theorem BitRange.start_add_width {r : BitRange} (h : r.wellFormed = true) :
    r.start.toNat + r.width = r.last.toNat + 1 := by
  have := r.wellFormed_iff.mp h
  simp only [BitRange.width]
  omega

theorem ones_toNat {w : Nat} (h : w ≤ 16) : (ones w).toNat = 2 ^ w - 1 := by
  have : 2 ^ w ≤ 2 ^ 16 := Nat.pow_le_pow_right (by decide) h
  have : 0 < 2 ^ w := Nat.two_pow_pos w
  simp only [ones, BitVec.toNat_ofNat]
  omega

/-- Bit `i` of `ones w` is one exactly below `w` (R11). -/
theorem getLsbD_ones (w i : Nat) : (ones w).getLsbD i = (decide (i < 16) && decide (i < w)) := by
  simp [ones, BitVec.getLsbD_ofNat, Nat.testBit_two_pow_sub_one]

theorem getElem_ones (w i : Nat) (h : i < 16) : (ones w)[i] = decide (i < w) := by
  rw [← BitVec.getLsbD_eq_getElem, getLsbD_ones]
  simp [h]

end Sys2Proof
end

