-- ==== Sys2Proof/Laws/Rom.lean ====
section
/-! SUPPORT. Small lemmas of the decode ROM's definitions. -/

namespace Sys2Proof

@[simp] theorem firstInstruction_nil (raw : Word) : firstInstruction [] raw = none := rfl

theorem firstInstruction_cons (raw : Word) (d : Descriptor) (ds : List Descriptor) :
    firstInstruction (d :: ds) raw =
      if d.matchesWord raw then some ⟨0, Nat.succ_pos ds.length⟩ else (firstInstruction ds raw).map Fin.succ := rfl

@[simp] theorem firstMatch_nil (raw : Word) : firstMatch [] raw = none := rfl

/-- The scan's recursion on the numbers alone. -/
theorem firstMatch_cons (raw : Word) (d : Descriptor) (ds : List Descriptor) :
    firstMatch (d :: ds) raw = if d.matchesWord raw then some 0 else (firstMatch ds raw).map (· + 1) := by
  simp only [firstMatch, firstInstruction_cons]
  split
  · rfl
  · simp [Function.comp_def]

/-- The number the scan finds is the number of the Instruction it finds. -/
theorem firstMatch_eq_some_iff (table : List Descriptor) (raw : Word) (i : Nat) :
    firstMatch table raw = some i ↔ ∃ h : i < table.length, firstInstruction table raw = some ⟨i, h⟩ := by
  constructor
  · intro hm
    obtain ⟨k, hk, rfl⟩ := Option.map_eq_some_iff.mp hm
    exact ⟨k.isLt, hk⟩
  · rintro ⟨h, hk⟩
    simp [firstMatch, hk]

theorem firstMatch_eq_none_iff (table : List Descriptor) (raw : Word) :
    firstMatch table raw = none ↔ firstInstruction table raw = none := by
  simp [firstMatch]

theorem firstMatch_lt {table : List Descriptor} {raw : Word} {i : Nat} (h : firstMatch table raw = some i) :
    i < table.length :=
  ((firstMatch_eq_some_iff table raw i).mp h).1

/-- A row found by its number is the descriptor of the Instruction with that number. -/
theorem descriptorAt_eq {table : List Descriptor} {i : Nat} {d : Descriptor} (h : table[i]? = some d) :
    ∃ hi : i < table.length, descriptorAt table ⟨i, hi⟩ = d := by
  obtain ⟨hi, hd⟩ := List.getElem?_eq_some_iff.mp h
  exact ⟨hi, hd⟩

/-- A number below `N` fits the index port. -/
theorem lt_two_pow_indexWidth {n i : Nat} (h : i < n) : i < 2 ^ indexWidth n := by
  have hn : n < 2 ^ n := Nat.lt_two_pow_self
  unfold indexWidth
  cases hf : (List.range n).find? fun w => decide (n ≤ 2 ^ w) with
  | some w =>
    have hw : n ≤ 2 ^ w := by simpa using List.find?_some hf
    exact lt_of_lt_of_le (lt_of_lt_of_le h hw) (Nat.pow_le_pow_right (by decide) (le_max_right 1 w))
  | none =>
    have hall := List.find?_eq_none.mp hf (n - 1) (List.mem_range.mpr (by omega))
    have : n - 1 < 2 ^ (n - 1) := Nat.lt_two_pow_self
    simp only [decide_eq_true_eq] at hall
    omega

theorem carryIndex_of_lt {n i : Nat} (h : i < 2 ^ indexWidth n) :
    carryIndex n i = some (BitVec.ofNat (indexWidth n) i) := by
  simp [carryIndex, h]

theorem carryIndex_of_ge {n i : Nat} (h : 2 ^ indexWidth n ≤ i) : carryIndex n i = none := by
  simp [carryIndex, Nat.not_lt.mpr h]

@[simp] theorem carryIndex_toNat {n : Nat} (p : IndexPort n) : carryIndex n p.toNat = some p := by
  simp [carryIndex, p.isLt]

theorem Descriptor.matchesWord_iff (d : Descriptor) (raw : Word) :
    d.matchesWord raw = true ↔ raw &&& d.mask = d.code := by
  simp [Descriptor.matchesWord]

theorem Descriptor.codeWithinMask_iff (d : Descriptor) :
    d.codeWithinMask = true ↔ d.code &&& d.mask = d.code := by
  simp [Descriptor.codeWithinMask]

theorem tableOk_iff (table : List Descriptor) :
    tableOk table = true ↔ ∀ d ∈ table, d.codeWithinMask = true := by
  simp [tableOk]

/-- A descriptor's own code matches it when it meets R72. -/
theorem Descriptor.matchesWord_code {d : Descriptor} (h : d.codeWithinMask = true) :
    d.matchesWord d.code = true := h

end Sys2Proof
end

