-- ==== Sys2Proof/Laws/State.lean ====
section
/-! SUPPORT. One lemma per field per update of State, so that no proof unfolds a record update. -/

namespace Sys2Proof.Machine

@[simp] theorem State.complete_config (s : State) (q : Request) (r : Response) :
    (s.complete q r).config = s.config := rfl

@[simp] theorem State.complete_pending (s : State) (q : Request) (r : Response) :
    (s.complete q r).pending = s.pending.tail := rfl

@[simp] theorem State.complete_served (s : State) (q : Request) (r : Response) :
    (s.complete q r).served = s.served ++ [(q, r)] := rfl

@[simp] theorem State.present_config (s : State) (q : Request) : (s.present q).config = s.config := rfl

@[simp] theorem State.present_pending (s : State) (q : Request) : (s.present q).pending = q :: s.pending := rfl

@[simp] theorem State.present_served (s : State) (q : Request) : (s.present q).served = s.served := rfl

@[simp] theorem State.reset_config : State.reset.config = refConfig := rfl

@[simp] theorem State.reset_pending : State.reset.pending = [] := rfl

@[simp] theorem State.reset_served : State.reset.served = [] := rfl

end Sys2Proof.Machine
end

