-- ==== Sys2Proof/Laws/Ops.lean ====
section
/-! SUPPORT. What each shared operation can do, said once. -/

namespace Sys2Proof.Machine

theorem onRom_ok {c : Config} (h : tableOk c.descTable = true) (a : Answer) : onRom c a = a := by
  simp [onRom, h]

theorem onRom_refused {c : Config} (h : tableOk c.descTable = false) (a : Answer) :
    onRom c a = .refused .tableRefused := by
  simp [onRom, h]

theorem identify_some {c : Config} {raw : Word} {i : Instruction c.descTable}
    (h : firstInstruction c.descTable raw = some i) (go : Instruction c.descTable → Answer) :
    identify c raw go = go i := by
  simp [identify, h]

theorem identify_none {c : Config} {raw : Word} (h : firstMatch c.descTable raw = none)
    (go : Instruction c.descTable → Answer) : identify c raw go = .fault (.decodeError { code := raw }) := by
  simp [identify, (firstMatch_eq_none_iff _ _).mp h]

theorem checkIndex_lt {c : Config} {p : IndexPort c.descTable.length} (h : p.toNat < c.descTable.length)
    (go : Instruction c.descTable → Answer) : checkIndex c p go = go ⟨p.toNat, h⟩ := by
  simp [checkIndex, h]

theorem checkIndex_ge {c : Config} {p : IndexPort c.descTable.length} (h : c.descTable.length ≤ p.toNat)
    (go : Instruction c.descTable → Answer) : checkIndex c p go = .fault (.indexFault p.toNat) := by
  simp [checkIndex, Nat.not_lt.mpr h]

/-- On the typed interface the port's check cannot fail (R160). -/
theorem atPort_instruction (c : Config) (i : Instruction c.descTable) (go : Instruction c.descTable → Answer) :
    atPort c i.val go = go i := by
  have hi : i.val < 2 ^ indexWidth c.descTable.length := lt_two_pow_indexWidth i.isLt
  simp [atPort, carryIndex_of_lt hi, checkIndex, Nat.mod_eq_of_lt hi]

theorem atPort_ge {c : Config} {p : IndexPort c.descTable.length} (h : c.descTable.length ≤ p.toNat)
    (go : Instruction c.descTable → Answer) : atPort c p.toNat go = .fault (.indexFault p.toNat) := by
  simp [atPort, checkIndex_ge h]

theorem atPort_wide {c : Config} {i : Nat} (h : 2 ^ indexWidth c.descTable.length ≤ i)
    (go : Instruction c.descTable → Answer) : atPort c i go = .refused (.indexNotCarried i) := by
  simp [atPort, carryIndex_of_ge h]

theorem atInstruction_instruction (c : Config) (i : Instruction c.descTable)
    (go : Instruction c.descTable → Answer) : atInstruction c i.val go = go i := by
  simp [atInstruction]

theorem atInstruction_ge {c : Config} {i : Nat} (h : c.descTable.length ≤ i)
    (go : Instruction c.descTable → Answer) : atInstruction c i go = .refused (.notAnInstruction i) := by
  simp [atInstruction, Nat.not_lt.mpr h]

theorem onRange_wellFormed {r : BitRange} (h : r.wellFormed = true) (response : Response) :
    onRange r response = .next response := by
  simp [onRange, h]

theorem onRange_malformed {r : BitRange} (h : r.wellFormed = false) (response : Response) :
    onRange r response = .fault (.rangeFault r.start r.last) := by
  simp [onRange, h]

@[simp] theorem State.take_next (s : State) (q : Request) (r : Response) :
    s.take q (.next r) = .next (s.complete q r) := rfl

@[simp] theorem State.take_fault (s : State) (q : Request) (f : Fault) : s.take q (.fault f) = .fault f := rfl

@[simp] theorem State.take_refused (s : State) (q : Request) (r : Refusal) :
    s.take q (.refused r) = .refused r := rfl

theorem serve_next {s : State} {q : Request} {r : Response} (h : answer s.config q = .next r) :
    serve q s = .next (s.complete q r) := by
  simp [serve, h]

theorem serve_fault {s : State} {q : Request} {f : Fault} (h : answer s.config q = .fault f) :
    serve q s = .fault f := by
  simp [serve, h]

theorem serve_refused {s : State} {q : Request} {r : Refusal} (h : answer s.config q = .refused r) :
    serve q s = .refused r := by
  simp [serve, h]

/-- Everything `serve` can do when it goes on: one response is recorded. -/
theorem serve_cases {s t : State} {q : Request} (h : serve q s = .next t) :
    ∃ r, answer s.config q = .next r ∧ t = s.complete q r := by
  unfold serve at h
  cases hr : answer s.config q with
  | next r => exact ⟨r, rfl, by simpa [hr] using h.symm⟩
  | fault f => simp [hr] at h
  | refused r => simp [hr] at h

/-- Every instruction's meaning is what the block does with the instruction's word (R194). -/
theorem exec_eq_meetWord (i : Instr) (s : State) : exec i s = meetWord (encode i) s := by
  cases i <;> rfl

theorem exec_eq_serve (i : Instr) (s : State) : exec i s = serve (s.ask (encode i)) s :=
  exec_eq_meetWord i s

theorem ask_decode {s : State} {raw : Word} {rest : List Request} (h : s.pending = .decode raw :: rest)
    (w : Word) : s.ask w = .decode w := by
  simp [State.ask, h]

theorem ask_classifyWord {s : State} {raw : Word} {rest : List Request}
    (h : s.pending = .classifyWord raw :: rest) (w : Word) : s.ask w = .classifyWord w := by
  simp [State.ask, h]

theorem ask_execute {s : State} {raw : Word} {rest : List Request} (h : s.pending = .execute raw :: rest)
    (w : Word) : s.ask w = .execute w := by
  simp [State.ask, h]

/-- A word request at the head asks about its own word. -/
theorem ask_head {s : State} {q : Request} {rest : List Request} {raw : Word} (h : s.pending = q :: rest)
    (hq : q.word? = some raw) : s.ask raw = q := by
  cases q <;> simp_all [Request.word?, State.ask]

theorem step_idle {s : State} (h : s.pending = []) : step s = .next s := by
  simp [step, h]

/-- Everything `step` can do when it goes on: nothing is presented, or it answers one request, which is the head one
or the one asked about the decoded instruction's word. -/
theorem step_cases {s t : State} (h : step s = .next t) :
    (s.pending = [] ∧ t = s) ∨
      ∃ q r, answer s.config q = .next r ∧ t = s.complete q r := by
  unfold step at h
  split at h
  · exact .inl ⟨‹_›, by simpa using h.symm⟩
  · refine .inr ?_
    split at h
    · obtain ⟨r, hr, ht⟩ := serve_cases h
      exact ⟨_, r, hr, ht⟩
    · split at h
      · rw [exec_eq_serve] at h
        obtain ⟨r, hr, ht⟩ := serve_cases h
        exact ⟨_, r, hr, ht⟩
      · obtain ⟨r, hr, ht⟩ := serve_cases h
        exact ⟨_, r, hr, ht⟩

end Sys2Proof.Machine
end

