-- ==== Sys2Proof/Laws/PerInstr.lean ====
section
/-! SUPPORT. Statements about every instruction as text, one lemma per constructor (LAWS.json). -/

namespace Sys2Proof.Laws

/-- An operand of `w` bits fits a field of `w` bits. -/
theorem fits_setWidth {w : Nat} (hw : w ≤ 16) (v : BitVec w) {r : BitRange} (hr : r.width = w) :
    (FieldValue.fits { range := r, value := v.setWidth 16 }) = true := by
  have h := v.isLt
  have : v.toNat < 2 ^ 16 := lt_of_lt_of_le h (Nat.pow_le_pow_right (by decide) hw)
  simp only [FieldValue.fits, hr, BitVec.toNat_setWidth, decide_eq_true_eq]
  rwa [Nat.mod_eq_of_lt this]

/-- The instruction's row stands at its index in REF_TABLE, and the instruction is well-formed: its row meets R72 and
each operand fits a well-formed field outside the row's mask (R68). -/
def RowWellFormed.Statement (i : Instr) : Prop :=
  refTable[i.row]? = some i.descriptor ∧ i.wf = true

/-- Every row of REF_TABLE meets R72 (R86). -/
theorem refTable_codesWithinMasks : ∀ d ∈ refTable, d.codeWithinMask = true := by decide

/-- An instruction whose operands are well-formed is well-formed. -/
theorem wf_of_fields {i : Instr} (hd : i.descriptor ∈ refTable)
    (hf : fieldsWellFormed i.descriptor i.fields = true) : i.wf = true :=
  Bool.and_eq_true_iff.mpr ⟨refTable_codesWithinMasks _ hd, hf⟩

/-- The rows with all of `F_A`, `F_B`, `F_C`, `F_0` free. -/
theorem fieldsWellFormed_full {d : Descriptor} (hd : d.mask = 0xFC00) (fA fB fC : BitVec 3) (f0 : BitVec 1) :
    fieldsWellFormed d (upperFields fA fB ++ [fCField fC, f0Field f0]) = true := by
  simp [fieldsWellFormed, upperFields, fCField, f0Field, FieldValue.wf, FieldValue.outsideMask, hd,
    fits_setWidth (w := 3) (by decide) _ (r := fARange) (by decide),
    fits_setWidth (w := 3) (by decide) _ (r := fBRange) (by decide),
    fits_setWidth (w := 3) (by decide) _ (r := fCRange) (by decide),
    fits_setWidth (w := 1) (by decide) _ (r := f0Range) (by decide)]
  decide

/-- The rows whose mask holds bit 0. -/
theorem fieldsWellFormed_bit0 {d : Descriptor} (hd : d.mask = 0xFC01) (fA fB fC : BitVec 3) :
    fieldsWellFormed d (upperFields fA fB ++ [fCField fC]) = true := by
  simp [fieldsWellFormed, upperFields, fCField, FieldValue.wf, FieldValue.outsideMask, hd,
    fits_setWidth (w := 3) (by decide) _ (r := fARange) (by decide),
    fits_setWidth (w := 3) (by decide) _ (r := fBRange) (by decide),
    fits_setWidth (w := 3) (by decide) _ (r := fCRange) (by decide)]
  decide

/-- The rows whose mask holds bit 3. -/
theorem fieldsWellFormed_bit3 {d : Descriptor} (hd : d.mask = 0xFC08) (fA fB : BitVec 3) (fC21 : BitVec 2)
    (f0 : BitVec 1) : fieldsWellFormed d (upperFields fA fB ++ [fC21Field fC21, f0Field f0]) = true := by
  simp [fieldsWellFormed, upperFields, fC21Field, f0Field, FieldValue.wf, FieldValue.outsideMask, hd,
    fits_setWidth (w := 3) (by decide) _ (r := fARange) (by decide),
    fits_setWidth (w := 3) (by decide) _ (r := fBRange) (by decide),
    fits_setWidth (w := 2) (by decide) _ (r := fC21Range) (by decide),
    fits_setWidth (w := 1) (by decide) _ (r := f0Range) (by decide)]
  decide

/-- The rows whose mask holds bits [3:1]. -/
theorem fieldsWellFormed_bits31 {d : Descriptor} (hd : d.mask = 0xFC0E) (fA fB : BitVec 3) (f0 : BitVec 1) :
    fieldsWellFormed d (upperFields fA fB ++ [f0Field f0]) = true := by
  simp [fieldsWellFormed, upperFields, f0Field, FieldValue.wf, FieldValue.outsideMask, hd,
    fits_setWidth (w := 3) (by decide) _ (r := fARange) (by decide),
    fits_setWidth (w := 3) (by decide) _ (r := fBRange) (by decide),
    fits_setWidth (w := 1) (by decide) _ (r := f0Range) (by decide)]
  decide

theorem RowWellFormed.nop (fA fB fC : BitVec 3) (f0 : BitVec 1) : RowWellFormed.Statement (.nop fA fB fC f0) :=
  ⟨rfl, wf_of_fields (by simp [refTable, Instr.descriptor]) (fieldsWellFormed_full rfl fA fB fC f0)⟩

theorem RowWellFormed.load (fA fB fC : BitVec 3) (f0 : BitVec 1) : RowWellFormed.Statement (.load fA fB fC f0) :=
  ⟨rfl, wf_of_fields (by simp [refTable, Instr.descriptor]) (fieldsWellFormed_full rfl fA fB fC f0)⟩

theorem RowWellFormed.add (fA fB fC : BitVec 3) : RowWellFormed.Statement (.add fA fB fC) :=
  ⟨rfl, wf_of_fields (by simp [refTable, Instr.descriptor]) (fieldsWellFormed_bit0 rfl fA fB fC)⟩

theorem RowWellFormed.addc (fA fB fC : BitVec 3) : RowWellFormed.Statement (.addc fA fB fC) :=
  ⟨rfl, wf_of_fields (by simp [refTable, Instr.descriptor]) (fieldsWellFormed_bit0 rfl fA fB fC)⟩

theorem RowWellFormed.xInc (fA fB : BitVec 3) (fC21 : BitVec 2) (f0 : BitVec 1) :
    RowWellFormed.Statement (.xInc fA fB fC21 f0) :=
  ⟨rfl, wf_of_fields (by simp [refTable, Instr.descriptor]) (fieldsWellFormed_bit3 rfl fA fB fC21 f0)⟩

theorem RowWellFormed.xDec (fA fB : BitVec 3) (fC21 : BitVec 2) (f0 : BitVec 1) :
    RowWellFormed.Statement (.xDec fA fB fC21 f0) :=
  ⟨rfl, wf_of_fields (by simp [refTable, Instr.descriptor]) (fieldsWellFormed_bit3 rfl fA fB fC21 f0)⟩

theorem RowWellFormed.xShrot0 (fA fB : BitVec 3) (f0 : BitVec 1) : RowWellFormed.Statement (.xShrot0 fA fB f0) :=
  ⟨rfl, wf_of_fields (by simp [refTable, Instr.descriptor]) (fieldsWellFormed_bits31 rfl fA fB f0)⟩

theorem RowWellFormed.xShrot1 (fA fB : BitVec 3) (f0 : BitVec 1) : RowWellFormed.Statement (.xShrot1 fA fB f0) :=
  ⟨rfl, wf_of_fields (by simp [refTable, Instr.descriptor]) (fieldsWellFormed_bits31 rfl fA fB f0)⟩

theorem RowWellFormed.xShrot2 (fA fB : BitVec 3) (f0 : BitVec 1) : RowWellFormed.Statement (.xShrot2 fA fB f0) :=
  ⟨rfl, wf_of_fields (by simp [refTable, Instr.descriptor]) (fieldsWellFormed_bits31 rfl fA fB f0)⟩

theorem RowWellFormed.xShrot3 (fA fB : BitVec 3) (f0 : BitVec 1) : RowWellFormed.Statement (.xShrot3 fA fB f0) :=
  ⟨rfl, wf_of_fields (by simp [refTable, Instr.descriptor]) (fieldsWellFormed_bits31 rfl fA fB f0)⟩

end Sys2Proof.Laws
end

