-- ==== Sys2Proof/Tests/Slice0.lean ====
section
/-! SUPPORT. Tests with results taken from the spec (spec/95_test_vectors.md, whose row each test names, and the
encodings of spec/30_encoding.md), the smoke test of every check of WellFormed.lean, and the witnesses of the statements
that have hypotheses. -/

namespace Sys2Proof.Tests

open Sys2Proof Sys2Proof.Machine

/-! ### Helpers -/

/-- A state with the reference configuration and these requests presented. -/
def asked (qs : List Request) : State :=
  { config := refConfig, pending := qs, served := [] }

/-- The responses recorded by an outcome; none where it stopped. -/
def responses : Host.Outcome State Fault Refusal → Option (List Response)
  | .next s => some (s.served.map Prod.snd)
  | .fault _ => none
  | .refused _ => none

/-- The response of one answer. -/
def valueOf (c : Config) (q : Request) : Option Response := responseOf (answer c q)

/-- The fault of one answer. -/
def faultIn (c : Config) (q : Request) : Option Fault := faultOf (answer c q)

/-- The fault of an outcome. -/
def stopFault : Host.Outcome State Fault Refusal → Option Fault
  | .next _ => none
  | .fault f => some f
  | .refused _ => none

/-- The refusal of an outcome. -/
def stopRefusal : Host.Outcome State Fault Refusal → Option Refusal
  | .next _ => none
  | .fault _ => none
  | .refused r => some r

/-- The instruction of a word. -/
def instrOf (raw : Word) : Option Instr := (decodeWord raw).toOption

/-- The reference configuration under `REPLACE_OVERFLOW = Mask`. -/
def maskConfig : Config := { refConfig with replaceOverflow := .mask }

/-- `ALT` of 95 section 2.4: row 2 of REF_TABLE replaced by an ADD whose mask ignores bit 0. -/
def altTable : List Descriptor := refTable.set 2 { name := "ADD", code := 0x8000, mask := 0xFC00 }

/-- The reference configuration with `ALT`. -/
def altConfig : Config := { refConfig with descTable := altTable }

/-- The table of vector T5, which fails W1. -/
def badTable : List Descriptor := refTable ++ [{ name := "BAD", code := 0x0001, mask := 0xFC00 }]

/-- The reference configuration with the table of T5. -/
def badConfig : Config := { refConfig with descTable := badTable }

/-! ### Smoke tests: an ill-formed term for each check -/

theorem test_fits_refuses_wide_value : (FieldValue.fits { range := fARange, value := 8 }) = false := by decide

theorem test_outsideMask_refuses_masked_field :
    (FieldValue.outsideMask addRow { range := f0Range, value := 1 }) = false := by decide

theorem test_fieldValue_refuses_malformed_range :
    (FieldValue.wf nopRow { range := BitRange.ofNats 5 4, value := 0 }) = false := by decide

theorem test_fields_refuse_opcode_field :
    fieldsWellFormed nopRow [fCField 7, { range := opcRange, value := 0 }] = false := by decide

theorem test_range_refuses_full_width_misread : (BitRange.ofNats 0 16).wellFormed = false := by decide

theorem test_request_refuses_wide_index : (Request.opcode 16).wf 10 = false := by decide

theorem test_request_refuses_no_instruction : (Request.name 10).wf 10 = false := by decide

theorem test_config_refuses_T5 : badConfig.wf = false := by decide

theorem test_instr_wf : (Instr.xDec 7 7 3 1).wf = true := by decide

/-! ### Decoding, on words written out from R65 and R86 -/

theorem test_decode_nop : instrOf 0b000000_111_111_111_1 = some (.nop 7 7 7 1) := by decide
theorem test_decode_load : instrOf 0b110000_100_010_001_1 = some (.load 4 2 1 1) := by decide
theorem test_decode_add : instrOf 0b100000_111_001_010_0 = some (.add 7 1 2) := by decide
theorem test_decode_addc : instrOf 0b100000_111_000_000_1 = some (.addc 7 0 0) := by decide
theorem test_decode_xInc : instrOf 0b100010_001_010_010_1 = some (.xInc 1 2 2 1) := by decide
theorem test_decode_xDec : instrOf 0b100010_001_010_101_0 = some (.xDec 1 2 1 0) := by decide
theorem test_decode_xShrot0 : instrOf 0b100100_011_100_000_1 = some (.xShrot0 3 4 1) := by decide
theorem test_decode_xShrot1 : instrOf 0b100100_011_100_001_0 = some (.xShrot1 3 4 0) := by decide
theorem test_decode_xShrot2 : instrOf 0b100100_011_100_010_1 = some (.xShrot2 3 4 1) := by decide
theorem test_decode_xShrot3 : instrOf 0b100100_011_100_011_0 = some (.xShrot3 3 4 0) := by decide

/-- S6, D15 to D19: unassigned words. -/
theorem test_decode_rejects :
    [0x2400, 0x9008, 0x900E, 0xFFFF, 0x0400, 0x8400].map instrOf = List.replicate 6 none := by decide

theorem test_decodeTableWord_addc : decodeTableWord 16 0x8381 = some (.addc 7 0 0) := by decide
theorem test_decodeTableWord_rejects_wide : decodeTableWord 32 0x18381 = none := by decide

/-- R70: the words of the encoder, against the words of the spec. -/
theorem test_encode_words :
    [encode (.load 4 2 1 1), encode (.addc 7 0 0), encode (.nop 0 0 0 0), encode (.xDec 0 0 0 0), encode (.xShrot2 0 0 0)]
      = [0xC223, 0x8381, 0x0000, 0x8808, 0x9004] := by decide

/-! ### One step of each instruction, from reset -/

/-- The word presented for DECODE after reset, one step. -/
def stepWord (w : Nat) : Option (List Response) := responses (step (State.reset.withFetchWord 16 w))

theorem test_step_nop : stepWord 0x03FF = some [.decoded 0] := by decide
theorem test_step_load : stepWord 0xC223 = some [.decoded 1] := by decide
theorem test_step_add : stepWord 0x8380 = some [.decoded 2] := by decide
theorem test_step_addc : stepWord 0x8381 = some [.decoded 3] := by decide
theorem test_step_xInc : stepWord 0x8BF7 = some [.decoded 4] := by decide
theorem test_step_xDec : stepWord 0x8BFF = some [.decoded 5] := by decide
theorem test_step_xShrot0 : stepWord 0x9001 = some [.decoded 6] := by decide
theorem test_step_xShrot1 : stepWord 0x9002 = some [.decoded 7] := by decide
theorem test_step_xShrot2 : stepWord 0x9004 = some [.decoded 8] := by decide
theorem test_step_xShrot3 : stepWord 0x9006 = some [.decoded 9] := by decide

/-- S6: the unassigned word faults with itself. -/
theorem test_step_unassigned :
    stopFault (step (State.reset.withFetchWord 16 0x2400)) = some (.decodeError { code := 0x2400 }) := by decide

/-- R180: an EXECUTE is refused by the instruction's name. -/
theorem test_step_execute :
    stopRefusal (step (asked [.execute 0x8381])) = some (.executionNotInSource "ADDC") := by decide

/-- R143: CLASSIFY_WORD of an X_DEC word, with the row of 95 section 2.5. -/
theorem test_step_classifyWord :
    responses (step (asked [.classifyWord 0x8BFF])) = some [.classifiedWord 5
      { opcode := 0x0022, mask := 0xFC08, code := 0x8808, name := "X_DEC", instrClass := .arithmetic }] := by decide

theorem test_step_idle : step State.reset = .next State.reset := rfl

/-! ### The bit-field vectors of 95 sections 1 and 2 -/

/-- EXTRACT of a value over a range. -/
def extracted (value : Word) (start last : Nat) : Option Response :=
  valueOf refConfig (.extract value (BitRange.ofNats start last))

/-- S1, E3, E6 to E8, E11. -/
theorem test_extract_vectors :
    [extracted 0b101000 3 5, extracted 0x8000 15 15, extracted 0xC223 10 15, extracted 0xC223 7 9, extracted 0xC223 4 6,
      extracted 0xABCD 4 11]
      = [some (.extracted 5), some (.extracted 1), some (.extracted 0x30), some (.extracted 4), some (.extracted 2),
          some (.extracted 0xBC)] := by decide

/-- E12, E13, E15. -/
theorem test_extract_faults :
    [faultIn refConfig (.extract 0x1234 (BitRange.ofNats 5 4)), faultIn refConfig (.extract 0x1234 (BitRange.ofNats 0 16)),
      faultIn refConfig (.extract 0x1234 (BitRange.ofNats 31 31))]
      = [some (.rangeFault 5 4), some (.rangeFault 0 16), some (.rangeFault 31 31)] := by decide

/-- REPLACE under a configuration. -/
def replaced (c : Config) (value bits : Word) (start last : Nat) : Option Response :=
  valueOf c (.replace value bits (BitRange.ofNats start last))

/-- S2, R7 to R12 of 95 section 2.2, under Leak. -/
theorem test_replace_leak :
    [replaced refConfig 0b101000 0b11 1 2, replaced refConfig 0x8001 7 7 9, replaced refConfig 0 7 1 2,
      replaced refConfig 0 0x41 9 9, replaced refConfig 0 0xFFFF 15 15, replaced refConfig 0x00F0 2 4 4,
      replaced refConfig 0x0F0F 0x00FF 4 7]
      = [some (.replaced 0b101110 false), some (.replaced 0x8381 false), some (.replaced 0x000E true),
          some (.replaced 0x8200 true), some (.replaced 0x8000 true), some (.replaced 0x00E0 true),
          some (.replaced 0x0FFF true)] := by decide

/-- R8, R9 of 95 section 2.2, under Mask. -/
theorem test_replace_mask :
    [replaced maskConfig 0 7 1 2, replaced maskConfig 0 0x41 9 9]
      = [some (.replaced 0x0006 true), some (.replaced 0x0200 true)] := by decide

/-- R15 of 95 section 2.2: a malformed range wins over overflow. -/
theorem test_replace_fault :
    faultIn refConfig (.replace 0xFFFF 0xFFFF (BitRange.ofNats 16 20)) = some (.rangeFault 16 20) := by decide

/-- R102: `..0` and `3..3` are empty, `..16` is full, `4..8` is `4..=7`. -/
theorem test_range_forms :
    (RangeForm.collapse (.upTo 0)).wellFormed = false ∧ (RangeForm.collapse (.between 3 3)).wellFormed = false ∧
    (∀ a : Bound, (RangeForm.collapse (.between a 0)).last.toNat < (RangeForm.collapse (.between a 0)).start.toNat) ∧
    RangeForm.collapse (.upTo 16) = BitRange.full ∧ RangeForm.collapse (.between 4 8) = BitRange.ofNats 4 7 := by decide

/-! ### Tables and the classifier -/

/-- T1, T2: under ALT the earlier ADD wins. -/
theorem test_alt_first_match : [firstMatch altTable 0x8381, firstMatch altTable 0x8001] = [some 2, some 2] := by decide

/-- T3: in ALT, ADD shadows ADDC by the pairwise test. -/
theorem test_alt_addc_shadowed :
    (altTable[2]?.bind fun a => altTable[3]?.map fun b => pairShadows a b) = some true := by decide

/-- T4: ALT contradicts S4, so it is not admissible. -/
theorem test_alt_not_sourceOk : ¬ sourceOk altTable := by
  rintro ⟨w, hw⟩
  have hfirst : firstMatch altTable 0x8381 = some 2 := by decide
  have hindex : w.addc.index = 2 := Option.some.inj (hw.addcFirst.symm.trans hfirst)
  have hrow : altTable[w.addc.index]? = some w.addc.desc := hw.rowsInTable w.addc (by simp [SourceRows.rows])
  rw [hindex] at hrow
  have hname : w.addc.desc.name = "ADD" := by
    have := Option.some.inj (hrow.symm.trans (rfl : altTable[2]? = some ⟨"ADD", 0x8000, 0xFC00⟩))
    rw [this]
  exact absurd (hname.symm.trans hw.addNames.2) (by decide)

/-- T5: a table that fails W1 is refused. -/
theorem test_bad_table_refused :
    stopRefusal (step { asked [.decode 0x0000] with config := badConfig }) = some .tableRefused := by decide

/-- 95 section 2.5, rows 1, 3 and 10. -/
theorem test_classifier_rows :
    [valueOf refConfig (.opcode 1), valueOf refConfig (.classOf 1), valueOf refConfig (.code 3), valueOf refConfig (.name 3)]
      = [some (.opcode 0x30), some (.instrClass .dataManipulation), some (.code 0x8001), some (.name "ADDC")] ∧
    faultIn refConfig (.classify 10) = some (.indexFault 10) := by decide

/-- The ports of S6, S4 and of row 6 of 95 section 2.5, and the independence of the groups (R34). -/
theorem test_ports :
    decodePorts refTable 0x2400 = .ok { dValid := false, dIndex := none, dErrCode := some 0x2400 } ∧
    evalPorts refConfig { x := some ⟨0xC223, 10, 15⟩, r := none, dRaw := some 0x8381, cIndex := some 6 } =
      { x := some ⟨some 0x30, false⟩, r := none, d := some (.ok ⟨true, some 3, none⟩),
        c := some (.ok ⟨false, some 0x24, some 0xFC0E, some 0x9000, some 2⟩) } := by decide

/-- T5 at the ports: a table that fails W1 shows no decode and no classification (R138). -/
theorem test_bad_table_ports :
    decodePorts badTable 0x0000 = .error .tableRefused ∧ classifyPorts badConfig 0 = .error .tableRefused := by decide

/-- Row 10 of 95 section 2.5 at the port, whose 4 bits carry 10 to 15 as well (R160). -/
theorem test_classify_port_index_error :
    classifyPorts refConfig 10 = .ok ⟨true, none, none, none, none⟩ ∧
    classifyPorts refConfig 15 = .ok ⟨true, none, none, none, none⟩ := by decide

/-- Program 2 of 95 section 3. -/
theorem test_program2 :
    decodeImage .halt refTable [0x0000, 0xC223, 0x8380, 0x8381, 0x8808, 0x9004, 0x2400, 0x8001] =
      { names := ["NOP", "LOAD", "ADD", "ADDC", "X_DEC", "X_SHROT2"], stop := .halted 6 { code := 0x2400 } } := by decide

/-- Program 4, step 1 then 2: the leaked bits change the instruction. -/
theorem test_program4 :
    firstMatch refTable (replaceField .leak 0 0x41 (BitRange.ofNats 9 9)) = some 2 ∧
    firstMatch refTable (replaceField .mask 0 0x41 (BitRange.ofNats 9 9)) = some 0 := by decide

/-- A session goes on after a fault (R204). -/
theorem test_session_goes_on :
    (session State.reset [.decode 0x2400, .opcode 3]).toOption.map (fun x => (x.state.served, x.faults)) =
      some ([(.opcode 3, .opcode 0x20)], [(.decode 0x2400, .decodeError { code := 0x2400 })]) := by decide

/-- A refusal marks the whole run (R180). -/
theorem test_session_refused :
    session State.reset [.opcode 3, .execute 0x8381, .opcode 3] = .error (.executionNotInSource "ADDC") := by decide

/-- R180: a shadowed row, ADDC of ALT, is no word's instruction and is refused by its name all the same. -/
theorem test_execute_shadowed_row :
    stopRefusal (step { asked [.executeInstr 3] with config := altConfig }) = some (.executionNotInSource "ADDC") := by
  decide

/-! ### Witnesses: concrete values that meet a statement's hypotheses together -/

theorem witness_ExtractAnswersShiftedAndMasked :
    (asked [.extract 0x8000 (BitRange.ofNats 15 15)]).pending = .extract 0x8000 (BitRange.ofNats 15 15) :: [] ∧
    ((BitRange.ofNats 15 15).start.toNat ≤ (BitRange.ofNats 15 15).last.toNat ∧ (BitRange.ofNats 15 15).last.toNat ≤ 15) ∧
    ¬ ((BitRange.ofNats 0 16).start.toNat ≤ (BitRange.ofNats 0 16).last.toNat ∧ (BitRange.ofNats 0 16).last.toNat ≤ 15) := by
  decide

theorem witness_ExtractReadsExactlyTheField : BitRange.full.wellFormed = true ∧ (BitRange.ofNats 15 15).wellFormed = true := by
  decide

theorem witness_ReplaceAnswersClearedThenSet :
    (asked [.replace 0 7 (BitRange.ofNats 1 2)]).pending = .replace 0 7 (BitRange.ofNats 1 2) :: [] ∧
    ((BitRange.ofNats 1 2).start.toNat ≤ (BitRange.ofNats 1 2).last.toNat ∧ (BitRange.ofNats 1 2).last.toNat ≤ 15) ∧
    (BitRange.ofNats 1 2).width ≤ 2 ∧ (7 : Word).getLsbD 2 = true ∧ (BitRange.ofNats 1 2).start.toNat + 2 ≤ 15 ∧
    ¬ ((BitRange.ofNats 3 2).start.toNat ≤ (BitRange.ofNats 3 2).last.toNat ∧ (BitRange.ofNats 3 2).last.toNat ≤ 15) := by
  decide

theorem witness_ReplaceBitByBit : (BitRange.ofNats 4 7).wellFormed = true ∧ (15 : Nat) ≤ 15 := by decide

theorem witness_OverflowIsDiagnosticOnly :
    (asked [.replace 0 0x41 (BitRange.ofNats 9 9)]).pending = .replace 0 0x41 (BitRange.ofNats 9 9) :: [] ∧
    (BitRange.ofNats 9 9).wellFormed = true := by decide

theorem witness_ReplaceLawsHold : (BitRange.ofNats 7 9).wellFormed = true ∧ (7 : Word).toNat < 2 ^ (BitRange.ofNats 7 9).width := by
  decide

theorem witness_MalformedRangeFaults :
    (BitRange.ofNats 5 4).last.toNat < (BitRange.ofNats 5 4).start.toNat ∧ 15 < (BitRange.ofNats 0 16).last.toNat ∧
    (asked [.extract 1 (BitRange.ofNats 5 4)]).pending = .extract 1 (BitRange.ofNats 5 4) :: [] ∧
    (asked [.replace 1 1 (BitRange.ofNats 0 16)]).pending = .replace 1 1 (BitRange.ofNats 0 16) :: [] := by decide

theorem witness_FieldMaskCoversExactlyTheRange : (BitRange.ofNats 0 0).wellFormed = true ∧ BitRange.full.wellFormed = true := by
  decide

theorem witness_BoundStylesKeepTheirBits :
    (0 : Bound).toNat ≤ (0 : Bound).toNat ∧ (3 : Bound).toNat ≤ (4 : Bound).toNat ∧ (0 : Bound).toNat < (16 : Bound).toNat := by
  decide

/-- One state for each outcome of DECODE, and a row with a zero mask before another. -/
theorem witness_DecodeAnswersFirstMatch :
    (asked [.decode 0x8381]).pending = .decode 0x8381 :: [] ∧ tableOk refTable = true ∧
    (refTable[3]? = some addcRow ∧ (0x8381 : Word) &&& addcRow.mask = addcRow.code ∧
      (0x8381 : Word) &&& nopRow.mask ≠ nopRow.code ∧ (0x8381 : Word) &&& loadRow.mask ≠ loadRow.code ∧
      (0x8381 : Word) &&& addRow.mask ≠ addRow.code) ∧
    (∀ d ∈ refTable, (0x2400 : Word) &&& d.mask ≠ d.code) ∧
    ([{ name := "ALL", code := 0, mask := 0 }, nopRow] : List Descriptor)[0]? = some { name := "ALL", code := 0, mask := 0 } := by
  decide

/-- Both states hold REF_TABLE; 0x2400 matches nothing, and NOP matches 0 before any later row. -/
theorem witness_DecodeHonoursDeclaredPriority :
    (asked [.decode 0]).pending = .decode 0 :: [] ∧ (asked [.decode 0]).config.descTable = refConfig.descTable ∧
    tableOk refTable = true ∧ (0 < 3 ∧ refTable[0]? = some nopRow ∧ nopRow.matchesWord 0 = true) ∧
    ∀ d ∈ refTable, d.matchesWord 0x2400 = false := by decide

theorem witness_DecodeIsTotal : (asked [.decode 0xFFFF]).pending = .decode 0xFFFF :: [] ∧
    tableOk (asked [.decode 0xFFFF]).config.descTable = true := by decide

/-- Two states that agree on the table and differ in the class map, the overflow mode and the rest. -/
theorem witness_DecodeDependsOnWordAndTableOnly :
    (asked [.decode 0xC223]).pending = .decode 0xC223 :: [] ∧
    ({ config := { maskConfig with classOf := Vector.replicate 64 .io }, pending := [.decode 0xC223, .opcode 1],
       served := [] } : State).pending = .decode 0xC223 :: [.opcode 1] ∧
    refConfig.descTable = ({ maskConfig with classOf := Vector.replicate 64 InstrClass.io } : Config).descTable := by
  decide

theorem witness_MatchComparesTheMaskedBits : addcRow.codeWithinMask = true ∧
    (Descriptor.codeWithinMask { name := "BAD", code := 0x0001, mask := 0xFC00 }) = false := by decide

theorem witness_ShadowedDescriptorsAreNeverReturned :
    2 < 3 ∧ altTable[2]? = some { name := "ADD", code := 0x8000, mask := 0xFC00 } ∧ altTable[3]? = some addcRow ∧
    pairShadows { name := "ADD", code := 0x8000, mask := 0xFC00 } addcRow = true := by decide

theorem witness_PriorityEncoderComputesTheScan :
    tableOk refTable = true ∧ firstMatch refTable 0x9006 = some 9 ∧ firstMatch refTable 0x2400 = none := by decide

theorem witness_CoveredOpcodeIsTheWordsOpcode :
    tableCoversOpcode refTable = true ∧ firstMatch refTable 0x8BFF = some 5 ∧ refTable[5]? = some xDecRow := by decide

theorem witness_DecodeErrorCarriesTheRawWord :
    tableOk refConfig.descTable = true ∧ (∀ d ∈ refConfig.descTable, d.matchesWord 0x2400 = false) ∧
    faultIn refConfig (.decode 0x2400) = some (.decodeError { code := 0x2400 }) := by decide

theorem witness_TableFailingW1IsRefused :
    ({ asked [.opcode 0] with config := badConfig } : State).pending = .opcode 0 :: [] ∧
    ∃ d ∈ ({ asked [.opcode 0] with config := badConfig } : State).config.descTable, d.code &&& d.mask ≠ d.code := by decide

theorem witness_AssembledWordMatchesItsDescriptor :
    refTable[3]? = some addcRow ∧ addcRow.codeWithinMask = true ∧ fieldsWellFormed addcRow (Instr.addc 7 0 0).fields = true := by
  decide

theorem witness_DecodeOfEncode : (Instr.xShrot3 7 7 1).wf = true := by decide

theorem witness_EncodeOfDecode : decodeWord 0x9006 = .ok (.xShrot3 0 0 0) := by decide

/-- REF_TABLE's rows as the ten rows of SOURCE_OK. -/
def refRows : SourceRows :=
  { nop := ⟨0, nopRow⟩, load := ⟨1, loadRow⟩, add := ⟨2, addRow⟩, addc := ⟨3, addcRow⟩, inc := ⟨4, xIncRow⟩,
    dec := ⟨5, xDecRow⟩, shrot0 := ⟨6, xShrot0Row⟩, shrot1 := ⟨7, xShrot1Row⟩, shrot2 := ⟨8, xShrot2Row⟩,
    shrot3 := ⟨9, xShrot3Row⟩, shrotBit := 1 }

/-- REF_TABLE meets SOURCE_OK (R86's check). -/
theorem refTable_sourceFacts : SourceFacts refTable refRows where
  codesWithinMasks := by decide
  rowsInTable := by simp [refRows, SourceRows.rows, SourceRows.shrots, RowAt.inTable, refTable]
  rowsDistinct := by decide
  nopRow := by decide
  nopFirst := by decide
  loadName := by decide
  loadFirst := by decide
  addNames := by decide
  addcFirst := by decide
  addBit0 := by decide
  incDecBit3 := by decide
  shrotOpcode := by decide
  shrotCodesDistinct := by decide
  shrotBelowOpcode := by decide
  shrotSubField := by decide
  unassigned := by decide

/-- REF_TABLE meets the readings of R71 (R86). -/
theorem refTable_sourceReadings : SourceReadings refRows where
  nopMask := by decide
  addMasks := by decide
  namedCoverOpcode := by decide
  incDecMasks := by decide
  shrotMasks := by decide

theorem witness_ReadingsFixTheOpcodes : ∃ w, SourceFacts refTable w ∧ SourceReadings w :=
  ⟨refRows, refTable_sourceFacts, refTable_sourceReadings⟩

theorem witness_AdmissibleTableHasTenRows : sourceOk refTable := ⟨_, refTable_sourceFacts⟩

theorem witness_ScenarioWordsInEveryAdmissibleTable : sourceOk State.reset.config.descTable := ⟨_, refTable_sourceFacts⟩

theorem witness_OpcodeAnswersTheCodesTopBits :
    (asked [.opcode 9]).pending = .opcode 9 :: [] ∧ tableOk refTable = true ∧ refTable[9]? = some xShrot3Row := by decide

theorem witness_MaskAndNameAnswerTheDescriptor :
    tableOk refTable = true ∧ refTable[0]? = some nopRow ∧ (asked [.mask 0]).pending = .mask 0 :: [] ∧
    (asked [.name 0]).pending = .name 0 :: [] ∧ (∃ i : Instruction refTable, i.val = 3 ∧ refTable[i.val]? = some addcRow) := by
  refine ⟨by decide, by decide, by decide, by decide, ⟨3, by decide⟩, by decide⟩

theorem witness_CodeAnswersAndDecodesBack :
    tableOk refTable = true ∧ refTable[3]? = some addcRow ∧ (asked [.code 3]).pending = .code 3 :: [] ∧
    (asked [.decode addcRow.code]).pending = .decode addcRow.code :: [] := by decide

theorem witness_ClassFollowsTheOpcodeFamily :
    (asked [.classOf 2]).pending = .classOf 2 :: [] ∧ tableOk refTable = true ∧ refTable[2]? = some addRow ∧
    addRow.opcode = addcRow.opcode := by decide

/-- The least and the greatest index that the reference port carries beyond the table. -/
theorem witness_IndexOutOfTableFaults :
    tableOk refConfig.descTable = true ∧
    (∀ index ∈ [(10 : IndexPort refConfig.descTable.length), 15], refConfig.descTable.length ≤ index.toNat) ∧
    Request.classify 10 ∈ [Request.opcode 10, .mask 10, .code 10, .classOf 10, .classify 10] ∧
    (asked [.classify 10]).pending = .classify 10 :: [] := by decide

theorem witness_IndexCheckFailsOnlyAtTheRawPort :
    (∀ k, 3 ≠ 2 ^ k) ∧ tableOk refConfig.descTable = true ∧
    refConfig.descTable.length ≤ (10 : IndexPort refConfig.descTable.length).toNat ∧ 0 < refConfig.descTable.length := by
  refine ⟨fun k h => ?_, by decide⟩
  match k with
  | 0 => omega
  | 1 => omega
  | k + 2 => rw [Nat.pow_add] at h; omega

/-- On each side of both bounds, and both kinds of refusal. -/
theorem witness_UnpresentableIndexIsRefused :
    tableOk refConfig.descTable = true ∧ (Request.opcode 16).wf refConfig.descTable.length = false ∧
    (Request.name 10).wf refConfig.descTable.length = false ∧ (Request.opcode 15).wf refConfig.descTable.length = true ∧
    (Request.executeInstr 9).wf refConfig.descTable.length = true ∧
    refusalOf (answer refConfig (.opcode 16)) = some (.indexNotCarried 16) ∧
    refusalOf (answer refConfig (.name 10)) = some (.notAnInstruction 10) ∧
    refusalOf (answer refConfig (.executeInstr 9)) = some (.executionNotInSource "X_SHROT3") := by decide

theorem witness_IndexWidthHoldsEveryIndex : 9 < 10 ∧ 1 ≤ 4 ∧ 10 ≤ 2 ^ 4 := by decide

theorem witness_ClassifyWordIsDecodeThenClassify :
    (asked [.classifyWord 0x8381]).pending = .classifyWord 0x8381 :: [] ∧
    valueOf refConfig (.decode 0x8381) = some (.decoded 3) ∧
    (asked [.classifyWord 0x2400]).pending = .classifyWord 0x2400 :: [] ∧
    faultIn refConfig (.decode 0x2400) = some (.decodeError { code := 0x2400 }) := by decide

theorem witness_ClassifyPortsAgreeWithRequests : tableOk refConfig.descTable = true := by decide

theorem witness_ExecutionIsRefusedByName :
    (asked [.execute 0]).pending = .execute 0 :: [] ∧ tableOk refTable = true ∧ firstMatch refTable 0 = some 0 ∧
    refTable[0]? = some nopRow ∧ encode (.nop 0 0 0 0) = 0 ∧ (asked [.executeInstr 9]).pending = .executeInstr 9 :: [] ∧
    refTable[9]? = some xShrot3Row ∧
    stopRefusal (step (asked [.executeInstr 9])) = some (.executionNotInSource "X_SHROT3") := by decide

theorem witness_EveryInstructionIsIdentified :
    State.reset.config.descTable = refTable ∧
    ∀ w rest, State.reset.pending ≠ .classifyWord w :: rest ∧ State.reset.pending ≠ .execute w :: rest :=
  ⟨rfl, fun _ _ => ⟨fun h => (List.cons_ne_nil _ _ h.symm), fun h => (List.cons_ne_nil _ _ h.symm)⟩⟩

theorem witness_EveryInstructionIsClassified :
    (asked [.classifyWord 0]).config.descTable = refTable ∧ (asked [.classifyWord 0]).pending = .classifyWord 0 :: [] :=
  ⟨rfl, rfl⟩

theorem witness_InstructionsUnderASuppliedTable :
    ({ asked [.decode 0x8381] with config := altConfig } : State).pending = .decode 0x8381 :: [] ∧
    tableOk altTable = true ∧ firstMatch altTable (encode (.addc 7 0 0)) = some 2 ∧
    tableOk [] = true ∧ firstMatch [] (encode (.addc 7 0 0)) = none := by decide

theorem witness_EveryInstructionFrame :
    exec (.load 4 2 1 1) State.reset = .next (State.reset.complete (.decode 0xC223) (.decoded 1)) := by
  rw [exec_eq_serve]
  exact serve_next rfl

theorem witness_StepRunsTheDecodedInstruction :
    (asked [.execute 0x8381]).pending = .execute 0x8381 :: [] ∧ (Request.execute 0x8381).word? = some 0x8381 ∧
    decodeWord 0x8381 = .ok (.addc 7 0 0) ∧ decodeTableWord 16 0x8381 = some (.addc 7 0 0) := by decide

theorem witness_StepAnswersTheHeadRequest :
    State.reset.pending = [] ∧ (asked [.decode 0x2400]).pending = .decode 0x2400 :: [] := by decide

theorem witness_EachRequestHasOneFaultKind :
    faultIn refConfig (.extract 0 (BitRange.ofNats 1 0)) = some (.rangeFault 1 0) ∧
    faultIn refConfig (.replace 0 0 (BitRange.ofNats 1 0)) = some (.rangeFault 1 0) ∧
    [faultIn refConfig (.decode 0x2400), faultIn refConfig (.classifyWord 0x2400), faultIn refConfig (.execute 0x2400)]
      = List.replicate 3 (some (.decodeError { code := 0x2400 })) ∧
    [Request.opcode 10, .mask 10, .code 10, .classOf 10, .classify 10].map (faultIn refConfig)
      = List.replicate 5 (some (.indexFault 10)) := by decide

/-- A state whose record is sound and whose step answers a request. -/
theorem witness_RecordStaysSound :
    RecordSound (asked [.opcode 3]) ∧
    step (asked [.opcode 3]) = .next ((asked [.opcode 3]).complete (.opcode 3) (.opcode 0x20)) :=
  ⟨fun _ _ h => absurd h List.not_mem_nil, rfl⟩

theorem witness_ConfigurationNeverChanges :
    Host.Core.run core 2 (asked [.decode 0, .opcode 3]) =
      .next { config := refConfig, pending := [], served := [(.decode 0, .decoded 0), (.opcode 3, .opcode 0x20)] } := rfl

theorem witness_RepeatedRequestsGetTheSameResponse :
    Host.Core.run core 1 (asked [.opcode 3]) = .next ((asked [.opcode 3]).complete (.opcode 3) (.opcode 0x20)) := rfl

theorem witness_RequestOrderDoesNotMatter :
    [Request.decode 0x2400, .opcode 3].Perm [.opcode 3, .decode 0x2400] ∧
    (session State.reset [.decode 0x2400, .opcode 3]).isOk = true := by decide

theorem witness_SessionAnswersEachRequestAlone :
    ∀ q ∈ [Request.decode 0x2400, .opcode 3], refusalOf (answer State.reset.config q) = none := by decide

theorem witness_EveryPendingRequestIsAnswered :
    ∀ q ∈ (asked [.decode 0, .opcode 3]).pending, q.Answered (asked [.decode 0, .opcode 3]).config := by
  intro q h
  simp only [asked, List.mem_cons, List.not_mem_nil, or_false] at h
  rcases h with rfl | rfl
  · exact ⟨.decoded 0, rfl⟩
  · exact ⟨.opcode 0x20, rfl⟩

theorem witness_ImageLoopStopsAtFirstInvalidWord :
    tableOk refTable = true ∧ (∀ w ∈ [0x0000, 0xC223], firstMatch refTable w ≠ none) ∧ firstMatch refTable 0x2400 = none := by
  refine ⟨by decide, fun w hw => ?_, by decide⟩
  simp only [List.mem_cons, List.not_mem_nil, or_false] at hw
  rcases hw with rfl | rfl <;> decide

end Sys2Proof.Tests
end

section
/-! The port's class encoding (R26) has a decoder; every fact about the encoding follows from the round trip. -/
namespace Sys2Proof

/-- The class that a 3-bit port code stands for (R26); 5 and 6 stand for none. -/
def InstrClass.ofPortCode? (code : BitVec 3) : Option InstrClass :=
  match code.toNat with
  | 0 => some .dataManipulation
  | 1 => some .arithmetic
  | 2 => some .logic
  | 3 => some .control
  | 4 => some .io
  | 7 => some .unclassified
  | _ => none

@[simp] theorem InstrClass.ofPortCode?_portCode (k : InstrClass) : ofPortCode? k.portCode = some k := by
  cases k <;> rfl

theorem InstrClass.portCode_injective : Function.Injective InstrClass.portCode := fun k l h =>
  Option.some.inj <| calc
    some k = ofPortCode? k.portCode := (ofPortCode?_portCode k).symm
    _ = ofPortCode? l.portCode := congrArg ofPortCode? h
    _ = some l := ofPortCode?_portCode l

/-- A code that decodes to no class is never produced. -/
theorem InstrClass.portCode_ne_of_ofPortCode?_eq_none {code : BitVec 3} (h : ofPortCode? code = none)
    (k : InstrClass) : k.portCode ≠ code := by
  rintro rfl
  simp at h

/-- Settles O36: the six codes are the definition's, and the decoder gives injectivity and rules 5 and 6 out. -/
theorem classPortCodes : Obligations.ClassPortCodes :=
  ⟨rfl, rfl, rfl, rfl, rfl, rfl,
    fun k => ⟨k.portCode_ne_of_ofPortCode?_eq_none rfl, k.portCode_ne_of_ofPortCode?_eq_none rfl⟩,
    fun _ _ h => InstrClass.portCode_injective h⟩

end Sys2Proof
end

section
/-! A word is put together again from its own fields: the encoding procedure of R68 gives back every bit that one of
the fields covers. A word that decodes is the word of its instruction, because the row's fixed bits are such fields
too. -/
namespace Sys2Proof

/-- The operand holds what the word has in the operand's field. -/
def FieldValue.IsFieldOf (raw : Word) (f : FieldValue) : Prop :=
  f.value = extractField raw f.range

/-- The bits that some operand's field covers, and those of `covered`. -/
def coveredBits (covered : Word) (fs : List FieldValue) : Word :=
  fs.foldl (fun m f => m ||| f.range.fieldMask) covered

/-- EXTRACT's result, shifted back into its place, is the word's bits under the field mask (R103, R104). -/
theorem extractField_shiftLeft_start (raw : Word) (r : BitRange) :
    extractField raw r <<< r.start.toNat = raw &&& r.fieldMask := by
  ext i hi
  by_cases h : i < r.start.toNat
  · simp [extractField, BitRange.fieldMask, h]
  · simp [extractField, BitRange.fieldMask, h, Nat.add_sub_cancel' (Nat.le_of_not_lt h),
      BitVec.getLsbD_eq_getElem hi]

/-- Placing a field of `raw` keeps the agreement with `raw` and extends it to the field. -/
theorem replaceField_agrees {raw w m : Word} {f : FieldValue} (hf : f.IsFieldOf raw) (h : w &&& m = raw &&& m) :
    replaceField .leak w f.value f.range &&& (m ||| f.range.fieldMask) = raw &&& (m ||| f.range.fieldMask) := by
  have hplaced : replaceField .leak w f.value f.range =
      (w &&& ~~~f.range.fieldMask) ||| (raw &&& f.range.fieldMask) := by
    rw [hf, replaceField, replaceBits, extractField_shiftLeft_start]
  rw [hplaced]
  ext i hi
  have hbit : (w[i] && m[i]) = (raw[i] && m[i]) := by
    simpa only [BitVec.getElem_and] using congrArg (·[i]) h
  cases hmask : f.range.fieldMask[i] with
  | false => simpa [hmask] using hbit
  | true => simp [hmask]

/-- The encoding procedure (R68) on fields of `raw` agrees with `raw` on every bit they cover. -/
theorem assembleWord_agrees {raw : Word} {fs : List FieldValue} (hfs : ∀ f ∈ fs, f.IsFieldOf raw) {w m : Word}
    (h : w &&& m = raw &&& m) :
    assembleWord .leak w fs &&& coveredBits m fs = raw &&& coveredBits m fs := by
  induction fs generalizing w m with
  | nil => exact h
  | cons f fs ih =>
    obtain ⟨hf, hrest⟩ := List.forall_mem_cons.mp hfs
    exact ih hrest (replaceField_agrees hf h)

/-- Fields of `raw` that cover the whole word put `raw` together. -/
theorem assembleWord_eq_of_coveredBits {raw : Word} {fs : List FieldValue} (hfs : ∀ f ∈ fs, f.IsFieldOf raw)
    (hall : coveredBits 0 fs = BitVec.allOnes 16) : assembleWord .leak 0 fs = raw := by
  have hnone : (0 : Word) &&& 0 = raw &&& 0 := by simp
  have h := assembleWord_agrees hfs hnone
  rwa [hall, BitVec.and_allOnes, BitVec.and_allOnes] at h

/-- A bit as a field of its own. -/
def bitField (k : Bound) (b : Bool) : FieldValue :=
  { range := { start := k, last := k }, value := (BitVec.ofBool b).setWidth 16 }

/-- The bits that the instruction's row fixes, as fields: the opcode and, where the mask holds them, bits of `F_C`
and `F_0` (R64, R86). -/
def Instr.fixedFields : Instr → List FieldValue
  | .nop _ _ _ _ => [{ range := opcRange, value := 0x00 }]
  | .load _ _ _ _ => [{ range := opcRange, value := 0x30 }]
  | .add _ _ _ => [{ range := opcRange, value := 0x20 }, bitField 0 false]
  | .addc _ _ _ => [{ range := opcRange, value := 0x20 }, bitField 0 true]
  | .xInc _ _ _ _ => [{ range := opcRange, value := 0x22 }, bitField 3 false]
  | .xDec _ _ _ _ => [{ range := opcRange, value := 0x22 }, bitField 3 true]
  | .xShrot0 _ _ _ => [{ range := opcRange, value := 0x24 }, fCField 0]
  | .xShrot1 _ _ _ => [{ range := opcRange, value := 0x24 }, fCField 1]
  | .xShrot2 _ _ _ => [{ range := opcRange, value := 0x24 }, fCField 2]
  | .xShrot3 _ _ _ => [{ range := opcRange, value := 0x24 }, fCField 3]

/-- The row's code is its fixed fields, placed into a word of zeros. -/
theorem Instr.assembleWord_fixedFields (i : Instr) : assembleWord .leak 0 i.fixedFields = i.descriptor.code := by
  cases i <;> simp only [fixedFields, descriptor] <;> decide

theorem Instr.encode_eq_assembleWord_zero (i : Instr) :
    encode i = assembleWord .leak 0 (i.fixedFields ++ i.fields) := by
  rw [encode, ← assembleWord_fixedFields]
  exact List.foldl_append.symm

/-- The fixed bits and the operands cover the whole word (R64). -/
theorem Instr.coveredBits_fixedFields_fields (i : Instr) :
    coveredBits 0 (i.fixedFields ++ i.fields) = BitVec.allOnes 16 := by
  cases i <;>
    simp only [coveredBits, fixedFields, fields, upperFields, fCField, fC21Field, f0Field, List.cons_append,
      List.nil_append, List.foldl_cons, List.foldl_nil] <;>
    decide

/-- An operand read at its field's own width is the field. -/
theorem operandOf_isFieldOf (raw : Word) {w : Nat} {r : BitRange} (hr : r.width = w) :
    FieldValue.IsFieldOf raw { range := r, value := (operandOf w raw r).setWidth 16 } := by
  subst hr
  change (operandOf r.width raw r).setWidth 16 = extractField raw r
  ext i hi
  by_cases h : i < r.width <;> simp [operandOf, extractField, getElem_ones, hi, h]

theorem areFieldsOf_append {raw : Word} {fs gs : List FieldValue} (hf : ∀ f ∈ fs, f.IsFieldOf raw)
    (hg : ∀ g ∈ gs, g.IsFieldOf raw) : ∀ f ∈ fs ++ gs, f.IsFieldOf raw :=
  List.forall_mem_append.mpr ⟨hf, hg⟩

theorem areFieldsOf_pair {raw : Word} {f g : FieldValue} (hf : f.IsFieldOf raw) (hg : g.IsFieldOf raw) :
    ∀ x ∈ [f, g], x.IsFieldOf raw :=
  List.forall_mem_cons.mpr ⟨hf, List.forall_mem_singleton.mpr hg⟩

theorem upperFields_areFieldsOf (raw : Word) :
    ∀ f ∈ upperFields (operandOf 3 raw fARange) (operandOf 3 raw fBRange), f.IsFieldOf raw :=
  areFieldsOf_pair (operandOf_isFieldOf raw rfl) (operandOf_isFieldOf raw rfl)

theorem fCField_isFieldOf (raw : Word) : (fCField (operandOf 3 raw fCRange)).IsFieldOf raw :=
  operandOf_isFieldOf raw rfl

theorem fC21Field_isFieldOf (raw : Word) : (fC21Field (operandOf 2 raw fC21Range)).IsFieldOf raw :=
  operandOf_isFieldOf raw rfl

theorem f0Field_isFieldOf (raw : Word) : (f0Field (operandOf 1 raw f0Range)).IsFieldOf raw :=
  operandOf_isFieldOf raw rfl

/-- A constant in the opcode's place is the word's field when the decoder reads that opcode. -/
theorem opcode_isFieldOf {raw c : Word} (h : (extractField raw opcRange).toNat = c.toNat) :
    FieldValue.IsFieldOf raw { range := opcRange, value := c } :=
  (BitVec.eq_of_toNat_eq h).symm

/-- A constant in `F_C`'s place is the word's field when the decoder reads that operand. -/
theorem fCField_isFieldOf_of_toNat_eq {raw : Word} {c : BitVec 3} (h : (operandOf 3 raw fCRange).toNat = c.toNat) :
    (fCField c).IsFieldOf raw :=
  BitVec.eq_of_toNat_eq h ▸ fCField_isFieldOf raw

theorem bitField_isFieldOf {raw : Word} {k : Bound} {b : Bool} (h : raw.getLsbD k.toNat = b) :
    (bitField k b).IsFieldOf raw := by
  subst h
  change _ = extractField raw { start := k, last := k }
  ext i hi
  cases i <;> simp [bitField, extractField, getElem_ones, BitRange.width]

/-- A word that decodes holds both what its instruction's row fixes and the instruction's operands. -/
theorem decodeWord_areFieldsOf {raw : Word} {i : Instr} (h : decodeWord raw = .ok i) :
    ∀ f ∈ i.fixedFields ++ i.fields, f.IsFieldOf raw := by
  have hAB := upperFields_areFieldsOf raw
  have hC := fCField_isFieldOf raw
  have hC21 := fC21Field_isFieldOf raw
  have h0 := f0Field_isFieldOf raw
  unfold decodeWord at h
  dsimp only at h
  split at h
  case h_1 hopc =>
    cases h
    exact areFieldsOf_append (List.forall_mem_singleton.mpr (opcode_isFieldOf hopc))
      (areFieldsOf_append hAB (areFieldsOf_pair hC h0))
  case h_2 hopc =>
    cases h
    exact areFieldsOf_append (List.forall_mem_singleton.mpr (opcode_isFieldOf hopc))
      (areFieldsOf_append hAB (areFieldsOf_pair hC h0))
  case h_3 hopc =>
    have hfields := areFieldsOf_append hAB (List.forall_mem_singleton.mpr hC)
    split at h <;> cases h
    case isTrue hbit =>
      exact areFieldsOf_append (areFieldsOf_pair (opcode_isFieldOf hopc) (bitField_isFieldOf hbit)) hfields
    case isFalse hbit =>
      exact areFieldsOf_append (areFieldsOf_pair (opcode_isFieldOf hopc)
        (bitField_isFieldOf (Bool.eq_false_of_not_eq_true hbit))) hfields
  case h_4 hopc =>
    have hfields := areFieldsOf_append hAB (areFieldsOf_pair hC21 h0)
    split at h <;> cases h
    case isTrue hbit =>
      exact areFieldsOf_append (areFieldsOf_pair (opcode_isFieldOf hopc) (bitField_isFieldOf hbit)) hfields
    case isFalse hbit =>
      exact areFieldsOf_append (areFieldsOf_pair (opcode_isFieldOf hopc)
        (bitField_isFieldOf (Bool.eq_false_of_not_eq_true hbit))) hfields
  case h_5 hopc =>
    have hfields := areFieldsOf_append hAB (List.forall_mem_singleton.mpr h0)
    split at h <;> cases h
    all_goals
      rename_i hfC
      exact areFieldsOf_append (areFieldsOf_pair (opcode_isFieldOf hopc) (fCField_isFieldOf_of_toNat_eq hfC)) hfields
  case h_6 => cases h

/-- A word that decodes is the word of the instruction it decodes to: the fields it was decoded into cover it. -/
theorem encode_of_decodeWord {raw : Word} {i : Instr} (h : decodeWord raw = .ok i) : encode i = raw := by
  rw [i.encode_eq_assembleWord_zero]
  exact assembleWord_eq_of_coveredBits (decodeWord_areFieldsOf h) i.coveredBits_fixedFields_fields

end Sys2Proof
end

section
/-! One step on a presented request takes the block's answer to it, which depends on the configuration alone; so a run
changes no later response (R45). -/
namespace Sys2Proof.Machine

/-- With a request presented, a step is the block's answer to it, whether or not its word is in the opcode table. -/
theorem step_of_pending {s : State} {q : Request} {rest : List Request} (h : s.pending = q :: rest) :
    step s = serve q s := by
  unfold step
  rw [h]
  dsimp only
  split
  next => rfl
  next raw hraw =>
    split
    next i hi => rw [exec_eq_serve, encode_of_decodeWord hi, ask_head h hraw]
    next => rfl

theorem step_present (s : State) (q : Request) :
    step (s.present q) = (s.present q).take q (answer s.config q) :=
  step_of_pending rfl

theorem State.take_eq_next_complete_iff {s : State} {q : Request} {a : Answer} {r : Response} :
    s.take q a = .next (s.complete q r) ↔ a = .next r := by
  cases a <;> simp [State.take, State.complete]

theorem State.take_eq_fault_iff {s : State} {q : Request} {a : Answer} {f : Fault} :
    s.take q a = .fault f ↔ a = .fault f := by
  cases a <;> simp

theorem State.take_eq_refused_iff {s : State} {q : Request} {a : Answer} {r : Refusal} :
    s.take q a = .refused r ↔ a = .refused r := by
  cases a <;> simp

theorem step_config {s t : State} (h : step s = .next t) : t.config = s.config := by
  obtain ⟨_, rfl⟩ | ⟨q, r, _, rfl⟩ := step_cases h
  · rfl
  · exact State.complete_config s q r

/-- A run that goes on for one more step takes that step first. -/
theorem run_succ_cases {M : Host.Core} {k : Nat} {s t : M.State} (h : M.run (k + 1) s = .next t) :
    ∃ u, M.step s = .next u ∧ M.run k u = .next t := by
  unfold Host.Core.run at h
  split at h
  next u hu => exact ⟨u, hu, h⟩
  next => cases h
  next => cases h

/-- No run writes the configuration (R221). -/
theorem run_config {k : Nat} {s t : State} (h : Host.Core.run core k s = .next t) : t.config = s.config := by
  induction k generalizing s with
  | zero => cases h; rfl
  | succ k ih =>
    obtain ⟨u, hu, hrun⟩ := run_succ_cases h
    exact (ih hrun).trans (step_config hu)

/-- Settles O54: a run keeps the configuration, and the answer reads nothing else of the state. -/
theorem repeatedRequestsGetTheSameResponse : Obligations.RepeatedRequestsGetTheSameResponse := by
  intro k s t q hrun
  simp only [step_present, run_config hrun, State.take_eq_next_complete_iff, State.take_eq_fault_iff,
    State.take_eq_refused_iff, implies_true, and_self]

end Sys2Proof.Machine
end

section
/-! A session in terms of the block's answers alone (R204, R180): it goes on exactly when no answer is a refusal, and
then it has recorded the answers in order. Another order of the requests only permutes the records (R48). -/
namespace Sys2Proof.Machine

/-- The session in which the requests' answers have been recorded, each where it belongs. -/
def Session.record (x : Session) (qs : List Request) : Session where
  state := { x.state with
    served := x.state.served ++ qs.filterMap fun q => (responseOf (answer x.state.config q)).map (q, ·) }
  faults := x.faults ++ qs.filterMap fun q => (faultOf (answer x.state.config q)).map (q, ·)

@[simp] theorem Session.record_config (x : Session) (qs : List Request) :
    (x.record qs).state.config = x.state.config := rfl

@[simp] theorem Session.record_nil (x : Session) : x.record [] = x := by
  simp [record]

theorem Session.record_append (x : Session) (qs qs' : List Request) :
    x.record (qs ++ qs') = (x.record qs).record qs' := by
  simp [record]

theorem Session.request_of_not_refused {x : Session} {q : Request}
    (h : refusalOf (answer x.state.config q) = none) : x.request q = .ok (x.record [q]) := by
  rw [request, step_present]
  cases ha : answer x.state.config q with
  | next r => simp [record, ha, responseOf, faultOf, State.complete, State.present]
  | fault f => simp [record, ha, responseOf, faultOf]
  | refused r => simp [ha, refusalOf] at h

theorem Session.request_of_refused {x : Session} {q : Request} {r : Refusal}
    (h : refusalOf (answer x.state.config q) = some r) : x.request q = .error r := by
  rw [request, step_present]
  cases ha : answer x.state.config q with
  | next r => simp [ha, refusalOf] at h
  | fault f => simp [ha, refusalOf] at h
  | refused r => simpa [ha, refusalOf] using h

/-- A session ends without a refusal exactly when no request's answer is one, and then has recorded them all. -/
theorem Session.run_eq_ok_iff {x y : Session} {qs : List Request} :
    x.run qs = .ok y ↔ (∀ q ∈ qs, refusalOf (answer x.state.config q) = none) ∧ y = x.record qs := by
  induction qs generalizing x with
  | nil => simp [run, eq_comm]
  | cons q qs ih =>
    cases hq : refusalOf (answer x.state.config q) with
    | none =>
      have hrecord : x.record (q :: qs) = (x.record [q]).record qs := x.record_append [q] qs
      simp [run, request_of_not_refused hq, ih, hq, hrecord]
    | some r => simp [run, request_of_refused hq, hq]

theorem session_eq_ok_iff {s : State} {y : Session} {qs : List Request} :
    session s qs = .ok y ↔
      (∀ q ∈ qs, refusalOf (answer s.config q) = none) ∧ y = Session.record { state := s, faults := [] } qs :=
  Session.run_eq_ok_iff

/-- Settles O56: no refusal among the answers is a property of the set of requests, and permuted requests record
permuted responses and faults. -/
theorem requestOrderDoesNotMatter : Obligations.RequestOrderDoesNotMatter := by
  intro s qs qs' x hperm hx
  obtain ⟨hanswered, rfl⟩ := session_eq_ok_iff.mp hx
  have hanswered' : ∀ q ∈ qs', refusalOf (answer s.config q) = none :=
    fun q hq => hanswered q (hperm.mem_iff.mpr hq)
  exact ⟨_, session_eq_ok_iff.mpr ⟨hanswered', rfl⟩, (hperm.filterMap _).append_left _,
    (hperm.filterMap _).append_left _, rfl⟩

end Sys2Proof.Machine
end

section
/-! The bit-field engine read bit by bit (R103, R104, R110, R111): which bit of the operands each bit of a result is.
The laws of EXTRACT and REPLACE compare such bits. -/
namespace Sys2Proof

theorem BitRange.ofNats_start_toNat {a : Nat} (b : Nat) (h : a ≤ 15) : (ofNats a b).start.toNat = a := by
  rw [ofNats, BitVec.toNat_ofNat, Nat.mod_eq_of_lt (by omega)]

theorem BitRange.ofNats_last_toNat (a : Nat) {b : Nat} (h : b ≤ 15) : (ofNats a b).last.toNat = b := by
  rw [ofNats, BitVec.toNat_ofNat, Nat.mod_eq_of_lt (by omega)]

theorem BitRange.ofNats_wellFormed {a b : Nat} (hab : a ≤ b) (hb : b ≤ 15) : (ofNats a b).wellFormed = true := by
  rw [wellFormed_iff, ofNats_start_toNat b (hab.trans hb), ofNats_last_toNat a hb]
  exact ⟨hab, hb⟩

theorem BitRange.ofNats_self_width (i : Nat) : (ofNats i i).width = 1 := by
  simp [width, ofNats]

theorem BitRange.wellFormed_eq_false_iff (r : BitRange) :
    r.wellFormed = false ↔ ¬ (r.start.toNat ≤ r.last.toNat ∧ r.last.toNat ≤ 15) := by
  rw [← r.wellFormed_iff, Bool.not_eq_true]

/-- Bit `i` of EXTRACT's result is bit `start + i` of the value, for the bits below the width (R104). -/
theorem getLsbD_extractField (value : Word) (r : BitRange) (i : Nat) :
    (extractField value r).getLsbD i = (decide (i < r.width) && value.getLsbD (r.start.toNat + i)) := by
  rw [extractField, BitVec.getLsbD_and, BitVec.getLsbD_ushiftRight, getLsbD_ones]
  by_cases hi : i < 16
  · simp [hi, Bool.and_comm]
  · simp [hi, BitVec.getLsbD_of_ge value (r.start.toNat + i) (by omega)]

/-- A one-bit range is extracted as that bit, 0 or 1 (R104). -/
theorem extractField_ofNats_self {i : Nat} (value : Word) (hi : i ≤ 15) :
    extractField value (BitRange.ofNats i i) = if value.getLsbD i then 1 else 0 := by
  refine BitVec.eq_of_getLsbD_eq fun j hj => ?_
  rw [getLsbD_extractField, BitRange.ofNats_self_width, BitRange.ofNats_start_toNat i hi]
  cases j with
  | zero => split <;> simp [*]
  | succ j => split <;> simp [BitVec.getLsbD_one]

/-- EXTRACT of the full range is the value (R105 (b)). -/
theorem extractField_full (value : Word) : extractField value BitRange.full = value := by
  refine BitVec.eq_of_getLsbD_eq fun j hj => ?_
  have hwidth : BitRange.full.width = 16 := rfl
  have hstart : BitRange.full.start.toNat = 0 := rfl
  rw [getLsbD_extractField, hwidth, hstart, Nat.zero_add, decide_eq_true hj, Bool.true_and]

/-- EXTRACT's result is never wider than the range (R105 (a)). -/
theorem extractField_toNat_lt (value : Word) (r : BitRange) : (extractField value r).toNat < 2 ^ r.width :=
  calc (extractField value r).toNat
    _ ≤ (ones r.width).toNat := BitVec.toNat_and .. ▸ Nat.and_le_right
    _ ≤ 2 ^ r.width - 1 := Nat.mod_le ..
    _ < 2 ^ r.width := Nat.sub_one_lt_of_lt (Nat.two_pow_pos r.width)

/-- The field mask has ones exactly at the positions `start` to `end` (R103). -/
theorem getLsbD_fieldMask {r : BitRange} (hr : r.wellFormed = true) (p : Nat) :
    r.fieldMask.getLsbD p = (decide (r.start.toNat ≤ p) && decide (p ≤ r.last.toNat)) := by
  have hend := BitRange.start_add_width hr
  obtain ⟨-, hlast⟩ := r.wellFormed_iff.mp hr
  rw [BitRange.fieldMask, BitVec.getLsbD_shiftLeft, getLsbD_ones, Bool.eq_iff_iff]
  simp only [Bool.and_eq_true, Bool.not_eq_true', decide_eq_true_eq, decide_eq_false_iff_not]
  omega

theorem replaceBits_eq_ite (mode : ReplaceOverflow) (bits : Word) (r : BitRange) :
    replaceBits mode bits r = if mode = .mask then bits &&& ones r.width else bits := by
  cases mode <;> rfl

/-- Below the width the contents are `bits`; from there on they are `bits` under Leak and nothing under Mask. -/
theorem getLsbD_replaceBits (mode : ReplaceOverflow) (bits : Word) (r : BitRange) (j : Nat) :
    (replaceBits mode bits r).getLsbD j = (bits.getLsbD j && (decide (mode = .leak) || decide (j < r.width))) := by
  cases mode with
  | leak => simp [replaceBits]
  | mask =>
    by_cases hj : j < 16
    · simp [replaceBits, getElem_ones, hj]
    · simp [replaceBits, BitVec.getLsbD_of_ge bits j (by omega)]

/-- REPLACE bit by bit: the value below the range, `bits` in it, and above it the value with, under Leak, the bits
that do not fit ORed in (R110, R111). -/
theorem getLsbD_replaceField (mode : ReplaceOverflow) (value bits : Word) {r : BitRange} (hr : r.wellFormed = true)
    {p : Nat} (hp : p ≤ 15) :
    (replaceField mode value bits r).getLsbD p =
      if p < r.start.toNat then value.getLsbD p
      else if p ≤ r.last.toNat then bits.getLsbD (p - r.start.toNat)
      else value.getLsbD p || (decide (mode = .leak) && bits.getLsbD (p - r.start.toNat)) := by
  have hp' : p < 16 := by omega
  have hend := BitRange.start_add_width hr
  rw [replaceField, BitVec.getLsbD_or, BitVec.getLsbD_and, BitVec.getLsbD_not, getLsbD_fieldMask hr,
    BitVec.getLsbD_shiftLeft, getLsbD_replaceBits]
  split
  case isTrue hbelow => simp [hp', hbelow, Nat.not_le.mpr hbelow]
  case isFalse hstart =>
    have hle : r.start.toNat ≤ p := Nat.le_of_not_lt hstart
    split
    case isTrue hlast =>
      have hfits : p - r.start.toNat < r.width := by omega
      simp [hp', hstart, hle, hlast, hfits]
    case isFalse hlast =>
      have habove : ¬ p - r.start.toNat < r.width := by omega
      simp [hp', hstart, hlast, habove, Bool.and_comm]

/-- REPLACE of the full range is `bits`: no position is below or above it (R110). -/
theorem replaceField_full (mode : ReplaceOverflow) (value bits : Word) :
    replaceField mode value bits BitRange.full = bits := by
  refine BitVec.eq_of_getLsbD_eq fun p hp => ?_
  have hstart : BitRange.full.start.toNat = 0 := rfl
  have hlast : BitRange.full.last.toNat = 15 := rfl
  rw [getLsbD_replaceField mode value bits rfl (Nat.le_of_lt_succ hp), hstart, hlast, if_neg (Nat.not_lt_zero p),
    if_pos (Nat.le_of_lt_succ hp), Nat.sub_zero]

/-- REPLACE of a one-bit range by contents of one bit writes that bit alone, under either mode (R110). -/
theorem getLsbD_replaceField_ofNats_self (mode : ReplaceOverflow) (value : Word) (b : Bool) {i j : Nat} (hi : i ≤ 15)
    (hj : j ≤ 15) :
    (replaceField mode value ((BitVec.ofBool b).setWidth 16) (BitRange.ofNats i i)).getLsbD j =
      if j = i then b else value.getLsbD j := by
  have hr := BitRange.ofNats_wellFormed le_rfl hi
  rw [getLsbD_replaceField mode value _ hr hj, BitRange.ofNats_start_toNat i hi, BitRange.ofNats_last_toNat i hi]
  obtain hlt | rfl | hgt := lt_trichotomy j i
  · simp [hlt, hlt.ne]
  · simp
  · have habove : j - i ≠ 0 := by omega
    simp [hgt.not_gt, hgt.not_ge, hgt.ne', habove, BitVec.getLsbD_ofBool]

/-- A one bit of `bits` beyond the width that still fits the word leaks into its position above the range (R111). -/
theorem getLsbD_replaceField_leak_above (value : Word) {bits : Word} {r : BitRange} (hr : r.wellFormed = true)
    {j : Nat} (hj : r.width ≤ j) (hbit : bits.getLsbD j = true) (hfits : r.start.toNat + j ≤ 15) :
    (replaceField .leak value bits r).getLsbD (r.start.toNat + j) = true := by
  have hend := BitRange.start_add_width hr
  have habove : ¬ r.start.toNat + j ≤ r.last.toNat := by omega
  simp [getLsbD_replaceField .leak value bits hr hfits, habove, hbit]

/-- A word fits `w` bits exactly when its bits from `w` on are zero. -/
theorem and_not_ones_eq_zero_iff (bits : Word) (w : Nat) :
    bits &&& ~~~ ones w = 0 ↔ ∀ j, w ≤ j → bits.getLsbD j = false := by
  constructor
  · intro h j hj
    by_cases hlt : j < 16
    · have hbit := congrArg (·.getLsbD j) h
      simpa [getElem_ones, hlt, Nat.not_lt.mpr hj] using hbit
    · exact BitVec.getLsbD_of_ge bits j (by omega)
  · intro h
    refine BitVec.eq_of_getLsbD_eq fun j hlt => ?_
    by_cases hj : w ≤ j
    · simp [h j hj]
    · simp [getElem_ones, hlt, Nat.lt_of_not_le hj]

/-- The overflow diagnostic as R112 words it. -/
theorem replaceOverflows_iff (bits : Word) (r : BitRange) :
    replaceOverflows bits r = true ↔ r.wellFormed = true ∧ ∃ j, r.width ≤ j ∧ bits.getLsbD j = true := by
  rw [replaceOverflows, Bool.and_eq_true, bne_iff_ne, ne_eq, and_not_ones_eq_zero_iff]
  simp

end Sys2Proof
end

section
/-! A step on EXTRACT or REPLACE: the range decides between the result and RangeFault, and nothing else does (R100,
R207). -/
namespace Sys2Proof.Machine

section
variable {s : State} {q : Request} {rest : List Request} {r : BitRange} {response : Response}

theorem step_next_of_onRange (h : s.pending = q :: rest) (ha : answer s.config q = onRange r response)
    (hr : r.wellFormed = true) : step s = .next (s.complete q response) := by
  rw [step_of_pending h]
  exact serve_next (ha.trans (onRange_wellFormed hr response))

theorem step_fault_of_onRange (h : s.pending = q :: rest) (ha : answer s.config q = onRange r response)
    (hr : r.wellFormed = false) : step s = .fault (.rangeFault r.start r.last) := by
  rw [step_of_pending h]
  exact serve_fault (ha.trans (onRange_malformed hr response))

end

/-- Settles O1: the step is the block's answer, which the range check decides; the result's corner cases are read bit
by bit. -/
theorem extractAnswersShiftedAndMasked : Obligations.ExtractAnswersShiftedAndMasked := by
  refine ⟨fun s value r rest h => ⟨fun hr => ?_, fun hr => ?_⟩, extractField_full,
    fun value i hi => extractField_ofNats_self value hi, fun value r _ => extractField_toNat_lt value r, by decide⟩
  · exact step_next_of_onRange h rfl (r.wellFormed_iff.mpr hr)
  · exact step_fault_of_onRange h rfl (r.wellFormed_eq_false_iff.mpr hr)

/-- Settles O3: the overflow output is the diagnostic, and the corner cases are read bit by bit. -/
theorem replaceAnswersClearedThenSet : Obligations.ReplaceAnswersClearedThenSet := by
  refine ⟨fun s value bits r rest h => ⟨fun hr => ⟨replaceOverflows bits r, ?_⟩, fun hr => ?_⟩,
    replaceField_full, fun mode value i hi j hj => ⟨?_, ?_⟩, fun mode => by cases mode <;> decide,
    fun value bits r hr j => getLsbD_replaceField_leak_above value hr⟩
  · have hstep := step_next_of_onRange h rfl (r.wellFormed_iff.mpr hr)
    rwa [replaceField, replaceBits_eq_ite] at hstep
  · exact step_fault_of_onRange h rfl (r.wellFormed_eq_false_iff.mpr hr)
  · refine (getLsbD_replaceField_ofNats_self mode value true hi hj).trans ?_
    split <;> simp [*]
  · refine (getLsbD_replaceField_ofNats_self mode value false hi hj).trans ?_
    split <;> simp [*]

/-- Settles O5: the answer to a well-formed REPLACE carries the diagnostic beside the result. -/
theorem overflowIsDiagnosticOnly : Obligations.OverflowIsDiagnosticOnly :=
  ⟨replaceOverflows_iff, fun _ _ _ _ _ h hr => step_next_of_onRange h rfl hr⟩

end Sys2Proof.Machine
end

section
/-! The scan of R131 is the library's search for the first position that passes a test. What the search returns is
the earliest matching descriptor's number, and it returns nothing exactly when no descriptor matches. -/
namespace Sys2Proof

theorem firstMatch_eq_findIdx? (table : List Descriptor) (raw : Word) :
    firstMatch table raw = table.findIdx? (·.matchesWord raw) := by
  induction table with
  | nil => rfl
  | cons d ds ih => rw [firstMatch_cons, List.findIdx?_cons, ih]

/-- The scan finds `i` exactly when descriptor `i` matches and no earlier one does. -/
theorem firstMatch_eq_some_iff_least {table : List Descriptor} {raw : Word} {i : Nat} :
    firstMatch table raw = some i ↔
      (∃ d, table[i]? = some d ∧ d.matchesWord raw = true) ∧
      ∀ j dj, j < i → table[j]? = some dj → dj.matchesWord raw = false := by
  rw [firstMatch_eq_findIdx?, List.findIdx?_eq_some_iff_getElem]
  constructor
  · rintro ⟨hi, hmatch, hearlier⟩
    refine ⟨⟨table[i], List.getElem?_eq_getElem hi, hmatch⟩, fun j dj hj hdj => ?_⟩
    obtain ⟨-, rfl⟩ := List.getElem?_eq_some_iff.mp hdj
    exact Bool.eq_false_of_not_eq_true (hearlier j hj)
  · rintro ⟨⟨d, hd, hmatch⟩, hearlier⟩
    obtain ⟨hi, rfl⟩ := List.getElem?_eq_some_iff.mp hd
    refine ⟨hi, hmatch, fun j hj => ?_⟩
    exact Bool.eq_false_iff.mp <| hearlier j _ hj (List.getElem?_eq_getElem (hj.trans hi))

theorem firstMatch_eq_none_iff_forall {table : List Descriptor} {raw : Word} :
    firstMatch table raw = none ↔ ∀ d ∈ table, d.matchesWord raw = false := by
  rw [firstMatch_eq_findIdx?, List.findIdx?_eq_none_iff]

theorem Descriptor.matchesWord_eq_false_iff (d : Descriptor) (raw : Word) :
    d.matchesWord raw = false ↔ raw &&& d.mask ≠ d.code := by
  rw [ne_eq, ← d.matchesWord_iff, Bool.not_eq_true]

/-- Where a descriptor matches, the scan finds it or an earlier one. -/
theorem exists_firstMatch_le {table : List Descriptor} {raw : Word} {i : Nat} {d : Descriptor}
    (hd : table[i]? = some d) (hmatch : d.matchesWord raw = true) : ∃ k ≤ i, firstMatch table raw = some k := by
  cases hscan : firstMatch table raw with
  | none =>
    have hnot := firstMatch_eq_none_iff_forall.mp hscan d (List.mem_of_getElem? hd)
    exact absurd hmatch (Bool.eq_false_iff.mp hnot)
  | some k =>
    refine ⟨k, Nat.le_of_not_lt fun hik => ?_, rfl⟩
    obtain ⟨-, hearlier⟩ := firstMatch_eq_some_iff_least.mp hscan
    exact Bool.eq_false_iff.mp (hearlier i d hik hd) hmatch

/-- A descriptor that matches hides every later one from the scan. -/
theorem firstMatch_ne_of_earlier_match {table : List Descriptor} {raw : Word} {i j : Nat} {d : Descriptor}
    (hd : table[i]? = some d) (hmatch : d.matchesWord raw = true) (hij : i < j) : firstMatch table raw ≠ some j := by
  obtain ⟨k, hk, hscan⟩ := exists_firstMatch_le hd hmatch
  rw [hscan]
  exact fun h => absurd (Option.some.inj h) (hk.trans_lt hij).ne

/-- A zero mask with a zero code matches every word. -/
theorem Descriptor.matchesWord_zero_mask (name : String) (raw : Word) :
    Descriptor.matchesWord { name := name, code := 0, mask := 0 } raw = true :=
  (matchesWord_iff _ raw).mpr BitVec.and_zero

theorem tableOk_eq_false_of_mem {table : List Descriptor} {d : Descriptor} (hd : d ∈ table)
    (hcode : d.code &&& d.mask ≠ d.code) : tableOk table = false :=
  Bool.eq_false_of_not_eq_true fun h => hcode (d.codeWithinMask_iff.mp ((tableOk_iff table).mp h d hd))

end Sys2Proof
end

section
/-! What DECODE answers, in terms of the scan (R131): the number it finds, or DecodeError with the word; and a table
that fails W1 is refused as a whole (R138). -/
namespace Sys2Proof.Machine

/-- DECODE's answer from the table and the word alone: nothing else of the configuration is read (R134). -/
theorem answer_decode (c : Config) (raw : Word) :
    answer c (.decode raw) =
      if tableOk c.descTable then
        (firstMatch c.descTable raw).elim (.fault (.decodeError { code := raw })) fun i => .next (.decoded i)
      else .refused .tableRefused := by
  rw [answer, onRom, identify, firstMatch]
  cases firstInstruction c.descTable raw <;> rfl

/-- DECODE answers `i` exactly when the table passes W1 and the scan finds `i`. -/
theorem answer_decode_eq_next_iff {c : Config} {raw : Word} {i : Nat} :
    answer c (.decode raw) = .next (.decoded i) ↔ tableOk c.descTable = true ∧ firstMatch c.descTable raw = some i := by
  rw [answer_decode]
  cases tableOk c.descTable <;> cases firstMatch c.descTable raw <;> simp

/-- DECODE faults exactly when the table passes W1 and the scan finds nothing, and then the fault holds the word. -/
theorem answer_decode_eq_fault_iff {c : Config} {raw : Word} {f : Fault} :
    answer c (.decode raw) = .fault f ↔
      tableOk c.descTable = true ∧ firstMatch c.descTable raw = none ∧ f = .decodeError { code := raw } := by
  rw [answer_decode]
  cases tableOk c.descTable <;> cases firstMatch c.descTable raw <;> simp [eq_comm]

section
variable {s : State} {raw : Word} {rest : List Request}

theorem step_decode_eq_next_iff (h : s.pending = .decode raw :: rest) (hok : tableOk s.config.descTable = true)
    {i : Nat} : step s = .next (s.complete (.decode raw) (.decoded i)) ↔
      firstMatch s.config.descTable raw = some i := by
  rw [step_of_pending h, serve, State.take_eq_next_complete_iff, answer_decode_eq_next_iff, and_iff_right hok]

theorem step_decode_fault (h : s.pending = .decode raw :: rest) (hok : tableOk s.config.descTable = true)
    (hscan : firstMatch s.config.descTable raw = none) : step s = .fault (.decodeError { code := raw }) := by
  rw [step_of_pending h]
  exact serve_fault (answer_decode_eq_fault_iff.mpr ⟨hok, hscan, rfl⟩)

end

theorem onRomPorts_refused {α : Type} {table : List Descriptor} (h : tableOk table = false) (out : α) :
    onRomPorts table out = .error .tableRefused := by
  simp [onRomPorts, h]

/-- For a table that fails W1 only the bit-field requests, which read no table, are not refused. -/
theorem answer_of_not_tableOk {c : Config} (h : tableOk c.descTable = false) (q : Request) :
    answer c q = .refused .tableRefused ∨
      (∃ value r, q = .extract value r) ∨ (∃ value bits r, q = .replace value bits r) := by
  cases q with
  | extract value r => exact .inr (.inl ⟨value, r, rfl⟩)
  | replace value bits r => exact .inr (.inr ⟨value, bits, r, rfl⟩)
  | _ => exact .inl (onRom_refused h _)

/-- Settles O10: the step is the scan's result, and the scan returns the least match. -/
theorem decodeAnswersFirstMatch : Obligations.DecodeAnswersFirstMatch := by
  refine ⟨fun s raw rest h hok => ⟨fun i d hd hmatch hearlier => ?_, fun hnone => ?_⟩, ?_, firstMatch_nil, ?_,
    by decide⟩
  · refine (step_decode_eq_next_iff h hok).mpr (firstMatch_eq_some_iff_least.mpr ⟨⟨d, hd, ?_⟩, fun j dj hj hdj => ?_⟩)
    · exact (d.matchesWord_iff raw).mpr hmatch
    · exact (dj.matchesWord_eq_false_iff raw).mpr (hearlier j dj hj hdj)
  · refine step_decode_fault h hok (firstMatch_eq_none_iff_forall.mpr fun d hd => ?_)
    exact (d.matchesWord_eq_false_iff raw).mpr (hnone d hd)
  · exact fun table i j name raw hd hij =>
      firstMatch_ne_of_earlier_match hd (Descriptor.matchesWord_zero_mask name raw) hij
  · rintro table ⟨w, facts⟩
    exact ⟨w.nop.index, w.nop.desc, facts.nopFirst, facts.rowsInTable w.nop List.mem_cons_self, facts.nopRow.1⟩

/-- Settles O14: the step is the block's answer, which reads the word and the table alone. -/
theorem decodeDependsOnWordAndTableOnly : Obligations.DecodeDependsOnWordAndTableOnly := by
  intro s t raw restS restT hs ht htable
  refine ⟨answer s.config (.decode raw), step_of_pending hs, ?_⟩
  rw [step_of_pending ht, serve, answer_decode, answer_decode, htable]

/-- Settles O11: (a) is O14's comparison; for (b) the scan stops at a match no later than `i`; for (c) it finds
nothing in the one table of both states. -/
theorem decodeHonoursDeclaredPriority : Obligations.DecodeHonoursDeclaredPriority := by
  intro s t raw restS restT hs ht htable hok
  refine ⟨decodeDependsOnWordAndTableOnly s t raw restS restT hs ht htable, fun i di hdi hmatch => ?_,
    fun i j di hij hdi hmatch hstep => ?_, fun hnone => ?_⟩
  · obtain ⟨k, hk, hscan⟩ := exists_firstMatch_le hdi hmatch
    obtain ⟨⟨dk, hdk, hmatchk⟩, -⟩ := firstMatch_eq_some_iff_least.mp hscan
    exact ⟨k, dk, hk, hdk, hmatchk, (step_decode_eq_next_iff hs hok).mpr hscan⟩
  · exact firstMatch_ne_of_earlier_match hdi hmatch hij ((step_decode_eq_next_iff hs hok).mp hstep)
  · have hscan := firstMatch_eq_none_iff_forall.mpr hnone
    exact ⟨step_decode_fault hs hok hscan, step_decode_fault ht (htable ▸ hok) (htable ▸ hscan)⟩

/-- Settles O21: every operation that reads the table checks W1 first. -/
theorem tableFailingW1IsRefused : Obligations.TableFailingW1IsRefused := by
  rintro s q rest h ⟨d, hd, hcode⟩
  have hbad := tableOk_eq_false_of_mem hd hcode
  refine ⟨hbad, fun _ => onRomPorts_refused hbad _, fun _ => onRomPorts_refused hbad _, ?_⟩
  refine (answer_of_not_tableOk hbad q).imp_left fun ha => ?_
  rw [step_of_pending h]
  exact serve_refused ha

/-- Settles O39: both requests go through the same scan; on the Instruction it finds neither the port's check nor the
typed interface's can fail. -/
theorem classifyWordIsDecodeThenClassify : Obligations.ClassifyWordIsDecodeThenClassify := by
  intro s raw rest h
  rw [step_of_pending h]
  refine ⟨fun i hdecode => ?_, fun f hdecode => ?_⟩
  · obtain ⟨hok, hscan⟩ := answer_decode_eq_next_iff.mp hdecode
    obtain ⟨hi, hfound⟩ := (firstMatch_eq_some_iff _ _ _).mp hscan
    have hport := fun go => (onRom_ok hok _).trans (atPort_instruction s.config ⟨i, hi⟩ go)
    have hname := fun go => (onRom_ok hok _).trans (atInstruction_instruction s.config ⟨i, hi⟩ go)
    exact ⟨_, _, _, _, _, hport _, hport _, hport _, hname _, hport _, hport _,
      serve_next ((onRom_ok hok _).trans (identify_some hfound _))⟩
  · obtain ⟨hok, hscan, rfl⟩ := answer_decode_eq_fault_iff.mp hdecode
    exact serve_fault ((onRom_ok hok _).trans (identify_none hscan _))

end Sys2Proof.Machine
end

section
/-! OPCODE as the ROM holds it: bits 15 down to 10 of the defining code, zero-extended (R161, R162). -/
namespace Sys2Proof

theorem opcRange_width : opcRange.width = 6 := rfl

theorem opcRange_start_toNat : opcRange.start.toNat = 10 := rfl

theorem Descriptor.opcode_eq_setWidth (d : Descriptor) : d.opcode = (d.code.extractLsb' 10 6).setWidth 16 := by
  refine BitVec.eq_of_getLsbD_eq fun k hk => ?_
  rw [opcode, getLsbD_extractField, opcRange_width, opcRange_start_toNat, BitVec.getLsbD_setWidth,
    BitVec.getLsbD_extractLsb', decide_eq_true hk, Bool.true_and]

/-- OPCODE is a 6-bit value (R162 (a)). -/
theorem Descriptor.opcode_toNat_le (d : Descriptor) : d.opcode.toNat ≤ 63 :=
  Nat.le_of_lt_succ (extractField_toNat_lt d.code opcRange)

theorem Descriptor.getLsbD_opcode_of_ge (d : Descriptor) {k : Nat} (hk : 6 ≤ k) : d.opcode.getLsbD k = false := by
  rw [opcode, getLsbD_extractField, opcRange_width, decide_eq_false (Nat.not_lt.mpr hk), Bool.false_and]

end Sys2Proof
end

section
/-! An accessor on an index below N answers from the index's row, at the port and on the typed interface alike
(R160, R161, R163, R165). -/
namespace Sys2Proof.Machine

theorem step_next_of_answer {s : State} {q : Request} {rest : List Request} {response : Response}
    (h : s.pending = q :: rest) (ha : answer s.config q = .next response) :
    step s = .next (s.complete q response) :=
  (step_of_pending h).trans (serve_next ha)

section
variable {c : Config} {i : Nat} {d : Descriptor} (hok : tableOk c.descTable = true) (hd : c.descTable[i]? = some d)
include hok hd

/-- A port accessor that responds from the row. -/
theorem onRom_atPort_row (respond : Descriptor → Response) :
    onRom c (atPort c i fun k => .next (respond (descriptorAt c.descTable k))) = .next (respond d) := by
  obtain ⟨hi, rfl⟩ := descriptorAt_eq hd
  exact (onRom_ok hok _).trans (atPort_instruction c ⟨i, hi⟩ _)

theorem answer_opcode_row : answer c (.opcode i) = .next (.opcode d.opcode) :=
  onRom_atPort_row hok hd fun d => .opcode d.opcode

theorem answer_mask_row : answer c (.mask i) = .next (.mask d.mask) :=
  onRom_atPort_row hok hd fun d => .mask d.mask

theorem answer_name_row : answer c (.name i) = .next (.name d.name) := by
  obtain ⟨hi, rfl⟩ := descriptorAt_eq hd
  exact (onRom_ok hok _).trans (atInstruction_instruction c ⟨i, hi⟩ _)

end

theorem nameOf_eq {table : List Descriptor} {i : Instruction table} {d : Descriptor} (hd : table[i.val]? = some d) :
    nameOf table i = d.name := by
  obtain ⟨_, rfl⟩ := descriptorAt_eq hd
  rfl

/-- Settles O32: the step answers from the row, and OPCODE reads the code alone; where the mask leaves the opcode
free, a matching word may hold another. -/
theorem opcodeAnswersTheCodesTopBits : Obligations.OpcodeAnswersTheCodesTopBits := by
  refine ⟨fun s i d rest h hok hd => ?_,
    fun d => ⟨d.opcode_eq_setWidth, d.opcode_toNat_le, fun k => d.getLsbD_opcode_of_ge⟩, ?_, ?_⟩
  · rw [← d.opcode_eq_setWidth]
    exact step_next_of_answer h (answer_opcode_row hok hd)
  · exact ⟨{ name := "FREE_OPCODE", code := 0x0001, mask := 0x0001 }, 0x8001, by decide⟩
  · exact answer_opcode_row (d := addcRow) (by decide) rfl

/-- Settles O33: both requests answer from the row, and NAME of an Instruction reads the same row. -/
theorem maskAndNameAnswerTheDescriptor : Obligations.MaskAndNameAnswerTheDescriptor := by
  refine ⟨fun s i d rest hok hd => ⟨fun h => ?_, fun h => ?_⟩, fun table i d hd => nameOf_eq hd, ?_, ?_⟩
  · exact step_next_of_answer h (answer_mask_row hok hd)
  · exact step_next_of_answer h (answer_name_row hok hd)
  · exact answer_mask_row (d := addRow) (by decide) rfl
  · exact answer_name_row (d := addcRow) (by decide) rfl

end Sys2Proof.Machine
end

section
/-! The raw index port (R44, R160): it carries every number below N, and where N is no power of two also one that is
no Instruction. Such a number shows the index error and nothing else. -/
namespace Sys2Proof

theorem le_two_pow_indexWidth (n : Nat) : n ≤ 2 ^ indexWidth n :=
  Nat.le_of_not_lt fun h => (lt_two_pow_indexWidth h).false

/-- A number that the port can carry is carried by its own bits. -/
theorem exists_indexPort_toNat_eq {n i : Nat} (h : i < 2 ^ indexWidth n) : ∃ index : IndexPort n, index.toNat = i :=
  ⟨BitVec.ofNatLT i h, rfl⟩

/-- Where N is no power of two, the port carries N itself, the first number that is no index. -/
theorem exists_indexPort_toNat_eq_length {n : Nat} (hn : ∀ k, n ≠ 2 ^ k) : ∃ index : IndexPort n, index.toNat = n :=
  exists_indexPort_toNat_eq ((le_two_pow_indexWidth n).lt_of_ne (hn _))

theorem indexErr_of_lt {table : List Descriptor} {index : IndexPort table.length} (h : index.toNat < table.length) :
    indexErr table index = false :=
  decide_eq_false (Nat.not_le.mpr h)

theorem indexErr_of_ge {table : List Descriptor} {index : IndexPort table.length} (h : table.length ≤ index.toNat) :
    indexErr table index = true :=
  decide_eq_true h

end Sys2Proof

namespace Sys2Proof.Machine

theorem onRomPorts_ok {α : Type} {table : List Descriptor} (h : tableOk table = true) (out : α) :
    onRomPorts table out = .ok out := by
  simp [onRomPorts, h]

/-- An index not below N shows `c_index_err = 1`, and no other output carries meaning (R160, R203). -/
theorem classifyPorts_ge {c : Config} {index : IndexPort c.descTable.length} (hok : tableOk c.descTable = true)
    (h : c.descTable.length ≤ index.toNat) :
    classifyPorts c index =
      .ok { cIndexErr := true, cOpcode := none, cMask := none, cCode := none, cClass := none } := by
  rw [classifyPorts, onRomPorts_ok hok, List.getElem?_eq_none h, indexErr_of_ge h]

/-- Settles O59: the port carries N where N is no power of two, every number not below N fails the check, and no
Instruction does. -/
theorem indexCheckFailsOnlyAtTheRawPort : Obligations.IndexCheckFailsOnlyAtTheRawPort := by
  refine ⟨fun n hn => ?_, fun c index hok h => ⟨?_, classifyPorts_ge hok h⟩, fun c i hok => ⟨?_, ?_, ?_⟩⟩
  · obtain ⟨index, hindex⟩ := exists_indexPort_toNat_eq_length hn
    exact ⟨index, hindex.ge⟩
  · exact (onRom_ok hok _).trans (atPort_ge h _)
  · exact (onRom_ok hok _).trans (atPort_instruction c i _)
  · exact (onRom_ok hok _).trans (atInstruction_instruction c i _)
  · obtain ⟨index, hindex⟩ := exists_indexPort_toNat_eq (lt_two_pow_indexWidth i.isLt)
    exact ⟨index, hindex, indexErr_of_lt (hindex ▸ i.isLt)⟩

end Sys2Proof.Machine
end

section
/-! EXECUTE is refused by the name of the Instruction's row, whether a word or an index names it; nothing that can
stand around the refusal turns it into a response, and a run ends in it (R180). -/
namespace Sys2Proof.Machine

theorem executeInstruction_row {c : Config} {i : Instruction c.descTable} {d : Descriptor}
    (hd : c.descTable[i.val]? = some d) : executeInstruction c i = .refused (.executionNotInSource d.name) := by
  rw [executeInstruction, nameOf_eq hd]

section
variable {c : Config} {k : Nat} {d : Descriptor} (hok : tableOk c.descTable = true) (hd : c.descTable[k]? = some d)
include hok hd

theorem answer_execute_row {raw : Word} (hscan : firstMatch c.descTable raw = some k) :
    answer c (.execute raw) = .refused (.executionNotInSource d.name) := by
  obtain ⟨hk, hfound⟩ := (firstMatch_eq_some_iff _ _ _).mp hscan
  calc answer c (.execute raw)
    _ = identify c raw (executeInstruction c) := onRom_ok hok _
    _ = executeInstruction c ⟨k, hk⟩ := identify_some hfound _
    _ = .refused (.executionNotInSource d.name) := executeInstruction_row hd

/-- The index alone decides: no scan is made, so a shadowed Instruction is refused by its own name. -/
theorem answer_executeInstr_row : answer c (.executeInstr k) = .refused (.executionNotInSource d.name) := by
  obtain ⟨hk, -⟩ := descriptorAt_eq hd
  calc answer c (.executeInstr k)
    _ = atInstruction c k (executeInstruction c) := onRom_ok hok _
    _ = executeInstruction c ⟨k, hk⟩ := atInstruction_instruction c ⟨k, hk⟩ _
    _ = .refused (.executionNotInSource d.name) := executeInstruction_row hd

end

theorem step_refused_of_answer {s : State} {q : Request} {rest : List Request} {r : Refusal}
    (h : s.pending = q :: rest) (ha : answer s.config q = .refused r) : step s = .refused r :=
  (step_of_pending h).trans (serve_refused ha)

/-- An instruction's meaning under EXECUTE is the block's answer about the instruction's own word (R194). -/
theorem exec_refused_of_answer {s : State} {w : Word} {rest : List Request} {i : Instr} {r : Refusal}
    (h : s.pending = .execute w :: rest) (ha : answer s.config (.execute (encode i)) = .refused r) :
    exec i s = .refused r := by
  rw [exec_eq_serve, ask_execute h]
  exact serve_refused ha

section
variable {c : Config} {response : Response}

theorem onRom_ne_next {a : Answer} (ha : a ≠ .next response) : onRom c a ≠ .next response := by
  unfold onRom
  split
  · exact ha
  · nofun

variable {go : Instruction c.descTable → Answer} (hgo : ∀ i, go i ≠ .next response)
include hgo

theorem identify_ne_next (raw : Word) : identify c raw go ≠ .next response := by
  unfold identify
  split
  · exact hgo _
  · nofun

theorem atInstruction_ne_next (index : Nat) : atInstruction c index go ≠ .next response := by
  unfold atInstruction
  split
  · exact hgo _
  · nofun

end

theorem executeInstruction_ne_next (c : Config) (response : Response) (i : Instruction c.descTable) :
    executeInstruction c i ≠ .next response := nofun

theorem run_succ_refused {M : Host.Core} {s : M.State} {r : M.Refusal} (h : M.step s = .refused r) (n : Nat) :
    M.run (n + 1) s = .refused r := by
  rw [Host.Core.run, h]

/-- Settles O42: by word and by index EXECUTE ends in the one refusal of an Instruction, which is no response. -/
theorem executionIsRefusedByName : Obligations.ExecutionIsRefusedByName := by
  refine ⟨fun s w raw rest k d h hok hscan hd => ⟨?_, ?_⟩, fun s k d rest h hok hd => ?_,
    fun c raw response => ?_, fun c k response => ?_, fun s n r hstep => run_succ_refused hstep n⟩
  · rintro rfl
    exact step_refused_of_answer h (answer_execute_row hok hd hscan)
  · rintro i rfl
    exact exec_refused_of_answer h (answer_execute_row hok hd hscan)
  · exact step_refused_of_answer h (answer_executeInstr_row hok hd)
  · exact onRom_ne_next (identify_ne_next (executeInstruction_ne_next c response) raw)
  · exact onRom_ne_next (atInstruction_ne_next (executeInstruction_ne_next c response) k)

end Sys2Proof.Machine
end

section
/-! A malformed range (R202): the request is RangeFault, and its port shows the error output and nothing else. -/
namespace Sys2Proof

/-- The two ways a range is malformed (R202). -/
theorem BitRange.wellFormed_eq_false_iff_or (r : BitRange) :
    r.wellFormed = false ↔ r.last.toNat < r.start.toNat ∨ 15 < r.last.toNat := by
  rw [r.wellFormed_eq_false_iff, not_and_or, not_le, not_le]

theorem rangeErr_of_malformed {r : BitRange} (hr : r.wellFormed = false) : rangeErr r = true := by
  rw [rangeErr_eq_not_wellFormed, hr, Bool.not_false]

/-- The diagnostic is not evaluated on a malformed range (R112, R207). -/
theorem replaceOverflows_of_malformed {r : BitRange} (hr : r.wellFormed = false) (bits : Word) :
    replaceOverflows bits r = false := by
  rw [replaceOverflows, hr, Bool.false_and]

end Sys2Proof

namespace Sys2Proof.Machine

theorem extractPorts_of_malformed {r : BitRange} (hr : r.wellFormed = false) (value : Word) :
    extractPorts { xValue := value, xStart := r.start, xEnd := r.last } = { xOut := none, xRangeErr := true } := by
  simp [extractPorts, rangeErr_of_malformed hr]

theorem replacePorts_of_malformed {r : BitRange} (hr : r.wellFormed = false) (mode : ReplaceOverflow)
    (value bits : Word) :
    replacePorts mode { rValue := value, rBits := bits, rStart := r.start, rEnd := r.last } =
      { rOut := none, rRangeErr := true, rOverflow := false } := by
  simp [replacePorts, rangeErr_of_malformed hr, replaceOverflows_of_malformed hr]

/-- Settles O7: the one range check decides both steps and both ports. -/
theorem malformedRangeFaults : Obligations.MalformedRangeFaults := by
  intro s value bits r rest hmalformed
  have hr := r.wellFormed_eq_false_iff_or.mpr hmalformed
  have hreplace := replacePorts_of_malformed hr s.config.replaceOverflow value bits
  exact ⟨fun h => step_fault_of_onRange h rfl hr, fun h => step_fault_of_onRange h rfl hr,
    extractPorts_of_malformed hr value, congrArg ReplaceOut.rOut hreplace, congrArg ReplaceOut.rRangeErr hreplace⟩

end Sys2Proof.Machine
end

section
/-! What each fault says of the request that raised it (R200 to R203, R207): each shared operation raises one kind of
fault at most, so the fault names its request and its cause. -/
namespace Sys2Proof.Machine

theorem onRange_eq_fault {r : BitRange} {response : Response} {f : Fault} (h : onRange r response = .fault f) :
    r.wellFormed = false ∧ f = .rangeFault r.start r.last := by
  cases hr : r.wellFormed with
  | true => simp [onRange_wellFormed hr] at h
  | false =>
    rw [onRange_malformed hr] at h
    exact ⟨rfl, (Host.Outcome.fault.inj h).symm⟩

section
variable {c : Config} {f : Fault}

theorem onRom_eq_fault {a : Answer} (h : onRom c a = .fault f) : tableOk c.descTable = true ∧ a = .fault f := by
  cases hok : tableOk c.descTable with
  | true => exact ⟨rfl, onRom_ok hok a ▸ h⟩
  | false => simp [onRom_refused hok] at h

variable {go : Instruction c.descTable → Answer}

theorem identify_eq_fault {raw : Word} (h : identify c raw go = .fault f) (hgo : ∀ i, go i ≠ .fault f) :
    firstMatch c.descTable raw = none ∧ f = .decodeError { code := raw } := by
  cases hscan : firstInstruction c.descTable raw with
  | some i => exact absurd (identify_some hscan go ▸ h) (hgo i)
  | none =>
    have hnone := (firstMatch_eq_none_iff _ _).mpr hscan
    rw [identify_none hnone] at h
    exact ⟨hnone, (Host.Outcome.fault.inj h).symm⟩

theorem atPort_eq_fault {index : Nat} (h : atPort c index go = .fault f) (hgo : ∀ i, go i ≠ .fault f) :
    c.descTable.length ≤ index ∧ f = .indexFault index := by
  rcases Nat.lt_or_ge index c.descTable.length with hlt | hge
  · exact absurd (atPort_instruction c ⟨index, hlt⟩ go ▸ h) (hgo _)
  · refine ⟨hge, ?_⟩
    rcases Nat.lt_or_ge index (2 ^ indexWidth c.descTable.length) with hcarried | hwide
    · obtain ⟨p, rfl⟩ := exists_indexPort_toNat_eq hcarried
      rw [atPort_ge hge] at h
      exact (Host.Outcome.fault.inj h).symm
    · simp [atPort_wide hwide] at h

/-- The typed interface has no check that can fail (R160, R165). -/
theorem not_fault_of_atInstruction {index : Nat} (h : atInstruction c index go = .fault f)
    (hgo : ∀ i, go i ≠ .fault f) : False := by
  rcases Nat.lt_or_ge index c.descTable.length with hlt | hge
  · exact hgo _ (atInstruction_instruction c ⟨index, hlt⟩ go ▸ h)
  · simp [atInstruction_ge hge] at h

end

/-- The request presents a word that no descriptor matches, and `f` is its DecodeError (R201). -/
def RaisesDecodeError (c : Config) (q : Request) (f : Fault) : Prop :=
  ∃ raw, q.word? = some raw ∧ firstMatch c.descTable raw = none ∧ f = .decodeError { code := raw }

/-- The request is EXTRACT or REPLACE on a malformed range, and `f` is its RangeFault (R202). -/
def RaisesRangeFault (q : Request) (f : Fault) : Prop :=
  ∃ r : BitRange, ((∃ value, q = .extract value r) ∨ ∃ value bits, q = .replace value bits r) ∧
    r.wellFormed = false ∧ f = .rangeFault r.start r.last

/-- The request is a port accessor on an index not below N, and `f` is its IndexFault (R203). -/
def RaisesIndexFault (c : Config) (q : Request) (f : Fault) : Prop :=
  ∃ index, q ∈ [Request.opcode index, .mask index, .code index, .classOf index, .classify index] ∧
    c.descTable.length ≤ index ∧ f = .indexFault index

/-- Every fault is one of the three, with its cause (R200). -/
theorem answer_fault_cases {c : Config} {q : Request} {f : Fault} (h : answer c q = .fault f) :
    RaisesDecodeError c q f ∨ RaisesRangeFault q f ∨ RaisesIndexFault c q f := by
  cases q with
  | extract value r => exact .inr (.inl ⟨r, .inl ⟨value, rfl⟩, onRange_eq_fault h⟩)
  | replace value bits r => exact .inr (.inl ⟨r, .inr ⟨value, bits, rfl⟩, onRange_eq_fault h⟩)
  | decode | classifyWord | execute =>
    obtain ⟨-, hid⟩ := onRom_eq_fault h
    exact .inl ⟨_, rfl, identify_eq_fault hid fun _ => nofun⟩
  | opcode | mask | code | classOf | classify =>
    obtain ⟨-, hport⟩ := onRom_eq_fault h
    exact .inr (.inr ⟨_, by simp, atPort_eq_fault hport fun _ => nofun⟩)
  | executeInstr | name =>
    obtain ⟨-, hinstr⟩ := onRom_eq_fault h
    exact (not_fault_of_atInstruction hinstr fun _ => nofun).elim

/-- Where the scan finds nothing the port shows `d_valid = 0` and the word as `d_err_code` (R32, R201). -/
theorem decodePorts_of_firstMatch_eq_none {table : List Descriptor} {raw : Word} (hok : tableOk table = true)
    (hscan : firstMatch table raw = none) :
    decodePorts table raw = .ok { dValid := false, dIndex := none, dErrCode := some raw } := by
  have hlines : (matchLines table raw).any id = false := by
    simpa [matchLines] using firstMatch_eq_none_iff_forall.mp hscan
  simp [decodePorts, onRomPorts_ok hok, hlines]

/-- Settles O20: the scan decides the answer and the port, and of the three kinds of fault only one is a
DecodeError. -/
theorem decodeErrorCarriesTheRawWord : Obligations.DecodeErrorCarriesTheRawWord := by
  refine ⟨fun c raw hok hnone => ?_, fun c q e h => ?_⟩
  · have hscan := firstMatch_eq_none_iff_forall.mpr hnone
    exact ⟨answer_decode_eq_fault_iff.mpr ⟨hok, hscan, rfl⟩, decodePorts_of_firstMatch_eq_none hok hscan⟩
  · obtain ⟨raw, hq, hscan, ⟨⟩⟩ | ⟨_, _, _, ⟨⟩⟩ | ⟨_, _, _, ⟨⟩⟩ := answer_fault_cases h
    exact ⟨hq, firstMatch_eq_none_iff_forall.mp hscan⟩

end Sys2Proof.Machine
end

section
/-! No step writes the configuration, so by induction on the number of steps no run does (R221). -/
namespace Sys2Proof.Machine

/-- Settles O53: an idle step keeps the whole state and an answered request leaves the configuration as it was
(`step_config`); `run_config` is the induction on the number of steps. -/
theorem configurationNeverChanges : Obligations.ConfigurationNeverChanges := by
  intro k s t hrun
  exact run_config hrun

end Sys2Proof.Machine
end

section
/-! What a placement of the encoding procedure (R68) leaves unchanged: an operand that fits its field changes no bit
outside the field, and REPLACE_OVERFLOW makes no difference to it. -/
namespace Sys2Proof

theorem and_ones_of_toNat_lt {bits : Word} {w : Nat} (h : bits.toNat < 2 ^ w) : bits &&& ones w = bits := by
  refine BitVec.eq_of_getLsbD_eq fun j hj => ?_
  rw [BitVec.getLsbD_and, getLsbD_ones, decide_eq_true hj, Bool.true_and]
  by_cases hw : j < w
  · simp [hw]
  · have hzero : bits.getLsbD j = false :=
      Nat.testBit_lt_two_pow (h.trans_le (Nat.pow_le_pow_right (by decide) (Nat.le_of_not_lt hw)))
    simp [hzero]

/-- Contents that fit the range are placed as they are, whatever REPLACE_OVERFLOW (R110, R111). -/
theorem replaceBits_of_fits {bits : Word} {r : BitRange} (h : bits.toNat < 2 ^ r.width) (mode : ReplaceOverflow) :
    replaceBits mode bits r = bits := by
  cases mode with
  | leak => rfl
  | mask => exact and_ones_of_toNat_lt h

theorem replaceField_of_fits {bits : Word} {r : BitRange} (h : bits.toNat < 2 ^ r.width) (mode : ReplaceOverflow)
    (value : Word) : replaceField mode value bits r = (value &&& ~~~r.fieldMask) ||| (bits <<< r.start.toNat) := by
  rw [replaceField, replaceBits_of_fits h]

/-- Contents that fit the range stay under its field mask when they are shifted into place (R103). -/
theorem shiftLeft_start_and_fieldMask {bits : Word} {r : BitRange} (h : bits.toNat < 2 ^ r.width) :
    (bits <<< r.start.toNat) &&& r.fieldMask = bits <<< r.start.toNat := by
  rw [BitRange.fieldMask, ← BitVec.shiftLeft_and_distrib, and_ones_of_toNat_lt h]

/-- REPLACE of contents that fit changes no bit of a mask that the range does not meet. -/
theorem replaceField_and_of_disjoint {bits m : Word} {r : BitRange} (hfits : bits.toNat < 2 ^ r.width)
    (hm : r.fieldMask &&& m = 0) (mode : ReplaceOverflow) (value : Word) :
    replaceField mode value bits r &&& m = value &&& m := by
  rw [replaceField_of_fits hfits, ← shiftLeft_start_and_fieldMask hfits]
  ext p hp
  have hbit : (r.fieldMask[p] && m[p]) = false := by
    rw [← BitVec.getElem_and, hm]
    exact BitVec.getElem_zero hp
  cases hmp : m[p] with
  | false => simp [hmp]
  | true =>
    have hfield : r.fieldMask[p] = false := by simpa only [hmp, Bool.and_true] using hbit
    simp [hmp, hfield]

theorem FieldValue.wf_iff (d : Descriptor) (f : FieldValue) :
    f.wf d = true ↔
      f.range.wellFormed = true ∧ f.value.toNat < 2 ^ f.range.width ∧ f.range.fieldMask &&& d.mask = 0 := by
  simp [wf, fits, outsideMask, and_assoc]

theorem fieldsWellFormed_iff (d : Descriptor) (fs : List FieldValue) :
    fieldsWellFormed d fs = true ↔ ∀ f ∈ fs, f.wf d = true :=
  List.all_eq_true

@[simp] theorem assembleWord_cons (mode : ReplaceOverflow) (w : Word) (f : FieldValue) (fs : List FieldValue) :
    assembleWord mode w (f :: fs) = assembleWord mode (replaceField mode w f.value f.range) fs := rfl

/-- The encoding procedure changes no bit of a mask that none of its fields meets. -/
theorem assembleWord_and_of_disjoint {m : Word} {fs : List FieldValue}
    (hfs : ∀ f ∈ fs, f.value.toNat < 2 ^ f.range.width ∧ f.range.fieldMask &&& m = 0) (w : Word) :
    assembleWord .leak w fs &&& m = w &&& m := by
  induction fs generalizing w with
  | nil => rfl
  | cons f fs ih =>
    obtain ⟨⟨hfits, hm⟩, hrest⟩ := List.forall_mem_cons.mp hfs
    rw [assembleWord_cons, ih hrest, replaceField_and_of_disjoint hfits hm]

/-- A word assembled for a descriptor matches it: the operands lie outside the mask. -/
theorem matchesWord_assembleWord {d : Descriptor} {fs : List FieldValue} (hd : d.codeWithinMask = true)
    (hfs : fieldsWellFormed d fs = true) : d.matchesWord (assembleWord .leak d.code fs) = true := by
  have hwf := (fieldsWellFormed_iff d fs).mp hfs
  rw [d.matchesWord_iff, assembleWord_and_of_disjoint fun f hf => ((f.wf_iff d).mp (hwf f hf)).2]
  exact d.codeWithinMask_iff.mp hd

/-- Where a descriptor matches, the scan finds it exactly when no earlier one matches. -/
theorem firstMatch_eq_some_iff_of_match {table : List Descriptor} {raw : Word} {i : Nat} {d : Descriptor}
    (hd : table[i]? = some d) (hmatch : d.matchesWord raw = true) :
    firstMatch table raw = some i ↔ ∀ j dj, j < i → table[j]? = some dj → dj.matchesWord raw = false := by
  rw [firstMatch_eq_some_iff_least, and_iff_right ⟨d, hd, hmatch⟩]

namespace Machine

/-- On well-formed operands the procedure meets no RangeFault and gives one word under either REPLACE_OVERFLOW. -/
theorem assemble_eq_next {d : Descriptor} {fs : List FieldValue} (hfs : fieldsWellFormed d fs = true)
    (mode : ReplaceOverflow) (w : Word) : assemble mode w fs = .next (assembleWord .leak w fs) := by
  rw [fieldsWellFormed_iff] at hfs
  induction fs generalizing w with
  | nil => rfl
  | cons f fs ih =>
    obtain ⟨hf, hrest⟩ := List.forall_mem_cons.mp hfs
    obtain ⟨hrange, hfits, -⟩ := (f.wf_iff d).mp hf
    rw [assemble, if_pos hrange, ih hrest, assembleWord_cons, replaceField_of_fits hfits, replaceField_of_fits hfits]

/-- Settles O22: by induction on the operands each placement keeps the masked bits and the one word of both modes;
the scan then finds the descriptor unless an earlier one matches. -/
theorem assembledWordMatchesItsDescriptor : Obligations.AssembledWordMatchesItsDescriptor := by
  intro table i d fs hd hcode hfs
  have hmatch := matchesWord_assembleWord hcode hfs
  exact ⟨assembleWord .leak d.code fs, fun mode => assemble_eq_next hfs mode d.code, hmatch,
    firstMatch_eq_some_iff_of_match hd hmatch⟩

end Machine

end Sys2Proof
end

section
/-! EXTRACT after REPLACE (R113), and what EXTRACT of a word depends on: the bits under the field mask. -/
namespace Sys2Proof

/-- EXTRACT of the range that REPLACE wrote gives the contents back, cut to the width (R113 (c)). -/
theorem extractField_replaceField (mode : ReplaceOverflow) (value bits : Word) {r : BitRange}
    (hr : r.wellFormed = true) : extractField (replaceField mode value bits r) r = bits &&& ones r.width := by
  have hend := BitRange.start_add_width hr
  obtain ⟨-, hlast⟩ := r.wellFormed_iff.mp hr
  refine BitVec.eq_of_getLsbD_eq fun i hi => ?_
  rw [getLsbD_extractField, BitVec.getLsbD_and, getLsbD_ones, decide_eq_true hi, Bool.true_and, Bool.and_comm]
  by_cases hw : i < r.width
  · have hbelow : ¬ r.start.toNat + i < r.start.toNat := by omega
    have hle : r.start.toNat + i ≤ r.last.toNat := by omega
    rw [getLsbD_replaceField mode value bits hr (hle.trans hlast), if_neg hbelow, if_pos hle, Nat.add_sub_cancel_left]
  · simp [hw]

/-- Words that agree under the field mask have one EXTRACT. -/
theorem extractField_congr {a b : Word} {r : BitRange} (h : a &&& r.fieldMask = b &&& r.fieldMask) :
    extractField a r = extractField b r := by
  refine BitVec.eq_of_getLsbD_eq fun i hi => ?_
  rw [getLsbD_extractField, getLsbD_extractField]
  by_cases hw : i < r.width
  · by_cases hp : r.start.toNat + i < 16
    · have hmask : r.fieldMask.getLsbD (r.start.toNat + i) = true := by
        simp [BitRange.fieldMask, getElem_ones, hp, hw]
      have hbit := congrArg (·.getLsbD (r.start.toNat + i)) h
      simp only [BitVec.getLsbD_and, hmask, Bool.and_true] at hbit
      rw [hbit]
    · rw [BitVec.getLsbD_of_ge a _ (Nat.le_of_not_lt hp), BitVec.getLsbD_of_ge b _ (Nat.le_of_not_lt hp)]
  · rw [decide_eq_false hw, Bool.false_and, Bool.false_and]

end Sys2Proof
end

section
/-! Reading an assembled word back. Operands in disjoint fields are all fields of the word they are placed into, and the
decoder reads an instruction from a word exactly when the word holds the instruction's fixed bits and its operands. -/
namespace Sys2Proof

/-- The operand fits its well-formed field. -/
def FieldValue.FitsField (f : FieldValue) : Prop :=
  f.range.wellFormed = true ∧ f.value.toNat < 2 ^ f.range.width

/-- Placed into disjoint fields, the operands are all fields of the assembled word: no later placement changes one. -/
theorem assembleWord_areFieldsOf {fs : List FieldValue} (hfits : ∀ f ∈ fs, f.FitsField)
    (hapart : (fs.map FieldValue.range).Pairwise fun r r' => r'.fieldMask &&& r.fieldMask = 0) (w : Word) :
    ∀ f ∈ fs, f.IsFieldOf (assembleWord .leak w fs) := by
  induction fs generalizing w with
  | nil => exact List.forall_mem_nil _
  | cons f fs ih =>
    obtain ⟨⟨hr, hf⟩, hrest⟩ := List.forall_mem_cons.mp hfits
    obtain ⟨hfirst, hpair⟩ := List.pairwise_cons.mp hapart
    have hkeep : ∀ g ∈ fs, g.value.toNat < 2 ^ g.range.width ∧ g.range.fieldMask &&& f.range.fieldMask = 0 :=
      fun g hg => ⟨(hrest g hg).2, hfirst g.range (List.mem_map_of_mem hg)⟩
    refine List.forall_mem_cons.mpr ⟨?_, ih hrest hpair _⟩
    calc f.value
      _ = f.value &&& ones f.range.width := (and_ones_of_toNat_lt hf).symm
      _ = extractField (replaceField .leak w f.value f.range) f.range := (extractField_replaceField .leak w _ hr).symm
      _ = extractField (assembleWord .leak w (f :: fs)) f.range :=
        extractField_congr (assembleWord_and_of_disjoint hkeep _).symm

/-- Every instruction's row stands in REF_TABLE, and every instruction is well-formed (R68, R72). -/
theorem Instr.rowWellFormed : ∀ i : Instr, Laws.RowWellFormed.Statement i
  | .nop fA fB fC f0 => Laws.RowWellFormed.nop fA fB fC f0
  | .load fA fB fC f0 => Laws.RowWellFormed.load fA fB fC f0
  | .add fA fB fC => Laws.RowWellFormed.add fA fB fC
  | .addc fA fB fC => Laws.RowWellFormed.addc fA fB fC
  | .xInc fA fB fC21 f0 => Laws.RowWellFormed.xInc fA fB fC21 f0
  | .xDec fA fB fC21 f0 => Laws.RowWellFormed.xDec fA fB fC21 f0
  | .xShrot0 fA fB f0 => Laws.RowWellFormed.xShrot0 fA fB f0
  | .xShrot1 fA fB f0 => Laws.RowWellFormed.xShrot1 fA fB f0
  | .xShrot2 fA fB f0 => Laws.RowWellFormed.xShrot2 fA fB f0
  | .xShrot3 fA fB f0 => Laws.RowWellFormed.xShrot3 fA fB f0

theorem Instr.getElem?_row (i : Instr) : refTable[i.row]? = some i.descriptor := i.rowWellFormed.1

theorem Instr.wf_iff (i : Instr) :
    i.wf = true ↔ i.descriptor.codeWithinMask = true ∧ fieldsWellFormed i.descriptor i.fields = true := by
  simp [wf]

theorem Instr.fixedFields_fit (i : Instr) : ∀ f ∈ i.fixedFields, f.FitsField := by
  cases i <;> simp only [fixedFields, FieldValue.FitsField] <;> decide

theorem Instr.fixedFields_fields_fit {i : Instr} (hwf : i.wf = true) :
    ∀ f ∈ i.fixedFields ++ i.fields, f.FitsField := by
  obtain ⟨-, hfields⟩ := i.wf_iff.mp hwf
  refine List.forall_mem_append.mpr ⟨i.fixedFields_fit, fun f hf => ?_⟩
  obtain ⟨hr, hfits, -⟩ := (f.wf_iff _).mp ((fieldsWellFormed_iff _ _).mp hfields f hf)
  exact ⟨hr, hfits⟩

/-- No two of the row's fixed fields and the operands' fields share a bit (R64, R65). -/
theorem Instr.fixedFields_fields_apart (i : Instr) :
    ((i.fixedFields ++ i.fields).map FieldValue.range).Pairwise fun r r' => r'.fieldMask &&& r.fieldMask = 0 := by
  cases i <;>
    simp only [fixedFields, fields, upperFields, bitField, fCField, fC21Field, f0Field, List.cons_append,
      List.nil_append, List.map_cons, List.map_nil] <;>
    decide

/-- The instruction's word holds the row's fixed bits and the operands, each in its field. -/
theorem Instr.encode_areFieldsOf {i : Instr} (hwf : i.wf = true) :
    ∀ f ∈ i.fixedFields ++ i.fields, f.IsFieldOf (encode i) := by
  rw [i.encode_eq_assembleWord_zero]
  exact assembleWord_areFieldsOf (fixedFields_fields_fit hwf) i.fixedFields_fields_apart 0

theorem isFieldOf_iff_extractField_eq {raw c : Word} {r : BitRange} :
    FieldValue.IsFieldOf raw { range := r, value := c } ↔ extractField raw r = c :=
  eq_comm

/-- An operand of the field's own width is the word's field exactly when the decoder reads it there. -/
theorem isFieldOf_iff_operandOf_eq {raw : Word} {w : Nat} {v : BitVec w} {r : BitRange} (hw : w ≤ 16)
    (hr : r.width = w) :
    FieldValue.IsFieldOf raw { range := r, value := v.setWidth 16 } ↔ operandOf w raw r = v := by
  constructor
  · intro h
    have hv : v.setWidth 16 = extractField raw r := h
    rw [operandOf, ← hv, BitVec.setWidth_setWidth_of_le v hw, BitVec.setWidth_eq]
  · rintro rfl
    exact operandOf_isFieldOf raw hr

theorem bitField_isFieldOf_iff {raw : Word} {k : Bound} {b : Bool} :
    (bitField k b).IsFieldOf raw ↔ raw.getLsbD k.toNat = b := by
  refine ⟨fun h => ?_, bitField_isFieldOf⟩
  have hv : (BitVec.ofBool b).setWidth 16 = extractField raw { start := k, last := k } := h
  have hbit := congrArg (·.getLsbD 0) hv
  rw [getLsbD_extractField] at hbit
  simpa [BitRange.width, eq_comm] using hbit

theorem bitField_zero_isFieldOf_iff {raw : Word} {b : Bool} : (bitField 0 b).IsFieldOf raw ↔ raw[0] = b :=
  bitField_isFieldOf_iff

theorem bitField_three_isFieldOf_iff {raw : Word} {b : Bool} : (bitField 3 b).IsFieldOf raw ↔ raw[3] = b :=
  bitField_isFieldOf_iff

theorem upperFields_areFieldsOf_iff {raw : Word} {fA fB : BitVec 3} :
    (∀ f ∈ upperFields fA fB, f.IsFieldOf raw) ↔ operandOf 3 raw fARange = fA ∧ operandOf 3 raw fBRange = fB := by
  rw [upperFields, List.forall_mem_cons, List.forall_mem_singleton]
  exact and_congr (isFieldOf_iff_operandOf_eq (by decide) rfl) (isFieldOf_iff_operandOf_eq (by decide) rfl)

theorem fCField_isFieldOf_iff {raw : Word} {fC : BitVec 3} :
    (fCField fC).IsFieldOf raw ↔ operandOf 3 raw fCRange = fC :=
  isFieldOf_iff_operandOf_eq (by decide) rfl

theorem fC21Field_isFieldOf_iff {raw : Word} {fC21 : BitVec 2} :
    (fC21Field fC21).IsFieldOf raw ↔ operandOf 2 raw fC21Range = fC21 :=
  isFieldOf_iff_operandOf_eq (by decide) rfl

theorem f0Field_isFieldOf_iff {raw : Word} {f0 : BitVec 1} :
    (f0Field f0).IsFieldOf raw ↔ operandOf 1 raw f0Range = f0 :=
  isFieldOf_iff_operandOf_eq (by decide) rfl

/-- A word that holds an instruction's fixed bits and operands decodes to the instruction: the decoder's branch is the
row's, and the operands it reads are the instruction's. -/
theorem decodeWord_of_areFieldsOf {raw : Word} {i : Instr} (h : ∀ f ∈ i.fixedFields ++ i.fields, f.IsFieldOf raw) :
    decodeWord raw = .ok i := by
  cases i <;>
    simp only [Instr.fixedFields, Instr.fields, List.forall_mem_append, List.forall_mem_cons,
      isFieldOf_iff_extractField_eq, bitField_zero_isFieldOf_iff, bitField_three_isFieldOf_iff,
      upperFields_areFieldsOf_iff, fCField_isFieldOf_iff, fC21Field_isFieldOf_iff, f0Field_isFieldOf_iff] at h <;>
    simp [decodeWord, h]

/-- Settles O23: the instruction's word holds its fixed bits and operands, and the decoder reads them back. -/
theorem decodeOfEncode : Obligations.DecodeOfEncode :=
  fun _ hwf => decodeWord_of_areFieldsOf (Instr.encode_areFieldsOf hwf)

/-- Settles O24: the fields that the instruction was read from cover the word. -/
theorem encodeOfDecode : Obligations.EncodeOfDecode :=
  fun _ _ h => encode_of_decodeWord h

end Sys2Proof
end

section
/-! The record of responses (R20, R45): a step adds at most the block's own answer to it, and keeps the
configuration. -/
namespace Sys2Proof.Machine

/-- Recording the block's answer to a request keeps the record sound. -/
theorem State.complete_recordSound {s : State} {q : Request} {r : Response} (hs : RecordSound s)
    (ha : answer s.config q = .next r) : RecordSound (s.complete q r) := by
  intro q' r' hmem
  rw [State.complete_served, List.mem_append, List.mem_singleton] at hmem
  rcases hmem with hold | hnew
  · exact hs q' r' hold
  · cases hnew
    exact ha

/-- Settles O50: an idle step keeps the record, and any other step records the block's answer. -/
theorem recordStaysSound : Obligations.RecordStaysSound := by
  intro s t hs hstep
  obtain ⟨-, rfl⟩ | ⟨q, r, ha, rfl⟩ := step_cases hstep
  · exact hs
  · exact State.complete_recordSound hs ha

/-- Settles O51: nothing is recorded at reset. -/
theorem resetRecordIsSound : Obligations.ResetRecordIsSound :=
  fun _ _ hmem => absurd hmem List.not_mem_nil

/-- Settles O52: the five fields of the reset state are its definition's. -/
theorem resetState : Obligations.ResetState :=
  ⟨State.reset_pending, State.reset_served, rfl, rfl, rfl⟩

end Sys2Proof.Machine
end

section
/-! The laws of the bit-field engine (R103, R105, R111, R113) and the bound styles (R102), read off bit by bit. -/
namespace Sys2Proof

theorem BitRange.width_le {r : BitRange} (hr : r.wellFormed = true) : r.width ≤ 16 := by
  have hend := BitRange.start_add_width hr
  obtain ⟨-, hlast⟩ := r.wellFormed_iff.mp hr
  omega

/-- EXTRACT is the word's bits from `start` on, as many as the width, zero-extended (R105). -/
theorem extractField_eq_setWidth_extractLsb' (value : Word) (r : BitRange) :
    extractField value r = (value.extractLsb' r.start.toNat r.width).setWidth 16 := by
  refine BitVec.eq_of_getLsbD_eq fun i hi => ?_
  rw [getLsbD_extractField, BitVec.getLsbD_setWidth, BitVec.getLsbD_extractLsb', decide_eq_true hi, Bool.true_and]

/-- Settles O2: a bit of the result is a bit of the value, below the width. -/
theorem extractReadsExactlyTheField : Obligations.ExtractReadsExactlyTheField := by
  intro value r _
  refine ⟨extractField_toNat_lt value r, ?_, extractField_eq_setWidth_extractLsb' value r, getLsbD_extractField value r⟩
  rintro rfl
  exact extractField_full value

/-- Under Mask, REPLACE is the Leak result for the contents cut to the width (R111). -/
theorem replaceField_mask (value bits : Word) (r : BitRange) :
    replaceField .mask value bits r = replaceField .leak value (bits &&& ones r.width) r := rfl

/-- Settles O4: below, in and above the range each mode's bit is the one of `getLsbD_replaceField`. -/
theorem replaceBitByBit : Obligations.ReplaceBitByBit := by
  intro value bits r hr
  refine ⟨fun p hp => ⟨?_, ?_⟩, replaceField_mask value bits r⟩
  · simp only [getLsbD_replaceField .leak value bits hr hp, decide_true, Bool.true_and]
  · rw [getLsbD_replaceField .mask value bits hr hp]
    split
    case isTrue hbelow => rw [if_neg fun h => hbelow.not_ge h.1]
    case isFalse hstart => simp [Nat.le_of_not_lt hstart]

/-- REPLACE of contents that fit changes nothing outside the range (R113 (b)). -/
theorem replaceField_and_not_fieldMask {bits : Word} {r : BitRange} (hfits : bits.toNat < 2 ^ r.width)
    (mode : ReplaceOverflow) (value : Word) :
    replaceField mode value bits r &&& ~~~r.fieldMask = value &&& ~~~r.fieldMask :=
  replaceField_and_of_disjoint hfits (by simp) mode value

/-- Settles O6: EXTRACT gives the contents back, contents that fit (under Mask all, once cut) stay in the range, and
under Leak the bit 1 of `0b10` put into bit 0 shows outside it. -/
theorem replaceLawsHold : Obligations.ReplaceLawsHold := by
  refine ⟨fun mode value bits r hr => ⟨fun hfits => ⟨?_, ?_⟩, ?_, fun p hp => ?_, ?_⟩,
    ⟨0, 0b10, BitRange.ofNats 0 0, by decide⟩⟩
  · exact (extractField_replaceField mode value bits hr).trans (and_ones_of_toNat_lt hfits)
  · exact replaceField_and_not_fieldMask hfits mode value
  · exact extractField_replaceField mode value bits hr
  · obtain ⟨hle, hlast⟩ := r.wellFormed_iff.mp hr
    have hp' : p ≤ 15 := hp.le.trans (hle.trans hlast)
    rw [getLsbD_replaceField mode value bits hr hp', if_pos hp]
  · have hcut : (bits &&& ones r.width).toNat < 2 ^ r.width :=
      extractField_replaceField mode value bits hr ▸ extractField_toNat_lt _ r
    exact (replaceField_mask value bits r) ▸ replaceField_and_not_fieldMask hcut .leak value

/-- Settles O8: the range has 1 to 16 positions, and the mask's ones are exactly these. -/
theorem fieldMaskCoversExactlyTheRange : Obligations.FieldMaskCoversExactlyTheRange :=
  fun r hr => ⟨r.width_pos, BitRange.width_le hr, getLsbD_fieldMask hr⟩

/-- A half-open range with a bound above 0 ends one below the bound (R102). -/
theorem halfOpen_of_pos (a : Bound) {b : Bound} (hb : 0 < b.toNat) : halfOpen a b = { start := a, last := b - 1 } := by
  have hne : b ≠ 0 := by
    rintro rfl
    exact absurd hb (by decide)
  rw [halfOpen, if_neg hne]

theorem bound_sub_one_toNat {b : Bound} (hb : 0 < b.toNat) : (b - 1).toNat = b.toNat - 1 := by
  bv_omega

/-- The exclusive bound 0 gives an end below the start, whatever the start. -/
theorem emptyRange_last_lt_start (a : Bound) : (emptyRange a).last.toNat < (emptyRange a).start.toNat := by
  unfold emptyRange
  split
  case isTrue => decide
  case isFalse ha => exact Nat.pos_of_ne_zero fun h => ha (BitVec.eq_of_toNat_eq h)

/-- An empty half-open range ends before it starts (R102). -/
theorem halfOpen_last_lt_start {a b : Bound} (h : b.toNat ≤ a.toNat) :
    (halfOpen a b).last.toNat < (halfOpen a b).start.toNat := by
  rcases Nat.eq_zero_or_pos b.toNat with hzero | hpos
  · obtain rfl : b = 0 := BitVec.eq_of_toNat_eq hzero
    exact emptyRange_last_lt_start a
  · rw [halfOpen_of_pos a hpos]
    change (b - 1).toNat < a.toNat
    rw [bound_sub_one_toNat hpos]
    omega

/-- Settles O9: each style's range is its definition's; the half-open ones differ in whether the bound is 0. -/
theorem boundStylesKeepTheirBits : Obligations.BoundStylesKeepTheirBits := by
  refine ⟨fun _ _ => rfl, fun _ _ => Iff.rfl, fun b p => ?_, rfl, fun a b h => ?_, fun a b h => ?_, fun a b h => ?_,
    fun _ => rfl⟩
  · exact and_iff_right p.zero_le
  · have hempty := halfOpen_last_lt_start h
    exact ⟨hempty, (BitRange.wellFormed_eq_false_iff_or _).mpr (.inl hempty)⟩
  · rw [RangeForm.collapse, halfOpen_of_pos a h]
    exact ⟨rfl, bound_sub_one_toNat h⟩
  · have hpos : 0 < b.toNat := Nat.zero_lt_of_lt h
    rw [RangeForm.collapse, halfOpen_of_pos a hpos]
    have hlast := bound_sub_one_toNat hpos
    constructor
    · rw [BitRange.wellFormed_iff]
      simp only [hlast]
      omega
    · intro p
      simp only [BitRange.covers, hlast]
      omega

end Sys2Proof
end

section
/-! The realised extractor and inserter (R106, R114): the range check in parallel is the request's, the field-mask
generator gives the field mask, and so the data outputs are the request's results. -/
namespace Sys2Proof.Machine

theorem rangeErr_of_wellFormed {r : BitRange} (hr : r.wellFormed = true) : rangeErr r = false := by
  rw [rangeErr_eq_not_wellFormed, hr, Bool.not_true]

theorem extractPorts_of_wellFormed {r : BitRange} (hr : r.wellFormed = true) (value : Word) :
    extractPorts { xValue := value, xStart := r.start, xEnd := r.last } =
      { xOut := some (extractField value r), xRangeErr := false } := by
  simp [extractPorts, rangeErr_of_wellFormed hr, extractField, BitRange.width]

/-- The mask generated bit by bit is the field mask (R103, R114). -/
theorem fieldMaskBits_eq_fieldMask {r : BitRange} (hr : r.wellFormed = true) :
    fieldMaskBits r.start r.last = r.fieldMask := by
  refine BitVec.eq_of_getLsbD_eq fun p hp => ?_
  rw [getLsbD_fieldMask hr, ← Bool.decide_and]
  refine (BitVec.getLsbD_ofBoolListLE).trans ?_
  simp [hp]

theorem replacePorts_of_wellFormed {r : BitRange} (hr : r.wellFormed = true) (mode : ReplaceOverflow)
    (value bits : Word) :
    replacePorts mode { rValue := value, rBits := bits, rStart := r.start, rEnd := r.last } =
      { rOut := some (replaceField mode value bits r), rRangeErr := false, rOverflow := replaceOverflows bits r } := by
  simp [replacePorts, rangeErr_of_wellFormed hr, fieldMaskBits_eq_fieldMask hr, replaceField]

/-- Settles O40: the range decides, at the ports as in the answers. -/
theorem bitfieldPortsAgreeWithRequests : Obligations.BitfieldPortsAgreeWithRequests := by
  intro c value bits r
  simp only [answer]
  cases hr : r.wellFormed with
  | true =>
    rw [onRange_wellFormed hr, onRange_wellFormed hr]
    exact ⟨extractPorts_of_wellFormed hr value, replacePorts_of_wellFormed hr c.replaceOverflow value bits⟩
  | false =>
    rw [onRange_malformed hr, onRange_malformed hr]
    exact ⟨extractPorts_of_malformed hr value, replacePorts_of_malformed hr c.replaceOverflow value bits⟩

end Sys2Proof.Machine
end

section
/-! What a match says of the word (R130, R140), and what the scan of R131 does with later descriptors, shadowed ones
and the realisation of R132. -/
namespace Sys2Proof

/-- Settles O12: the scan is the search for the first match. -/
theorem firstMatchIsTheLeastMatch : Obligations.FirstMatchIsTheLeastMatch :=
  fun _ _ => ⟨fun _ => firstMatch_eq_some_iff_least, firstMatch_eq_none_iff_forall⟩

/-- Settles O17: searching an append searches the first list and then the second. -/
theorem laterDescriptorsNeverOverride : Obligations.LaterDescriptorsNeverOverride := by
  intro table more raw
  simp only [firstMatch_eq_findIdx?, List.findIdx?_append]
  cases table.findIdx? (·.matchesWord raw) <;> rfl

/-- A descriptor that some word matches meets R72: its code is that word's masked part. -/
theorem Descriptor.codeWithinMask_of_matchesWord {d : Descriptor} {raw : Word} (h : d.matchesWord raw = true) :
    d.codeWithinMask = true := by
  rw [matchesWord_iff] at h
  rw [codeWithinMask_iff, ← h, BitVec.and_assoc, BitVec.and_self]

/-- Under R72 a match compares exactly the bits at the ones of the mask (R130). -/
theorem Descriptor.matchesWord_iff_getLsbD {d : Descriptor} (hd : d.codeWithinMask = true) (raw : Word) :
    d.matchesWord raw = true ↔ ∀ k, k < 16 → d.mask.getLsbD k = true → raw.getLsbD k = d.code.getLsbD k := by
  rw [codeWithinMask_iff] at hd
  rw [matchesWord_iff, ← hd]
  constructor
  · intro h k _ hmask
    simpa [hmask] using congrArg (·.getLsbD k) h
  · intro h
    refine BitVec.eq_of_getLsbD_eq fun k hk => ?_
    have hbit := h k hk
    rw [BitVec.getLsbD_and, BitVec.getLsbD_and] at *
    cases hmask : d.mask.getLsbD k with
    | false => simp
    | true => simpa [hmask] using hbit hmask

/-- Settles O16: the masked bits decide, and a code outside its mask is no word's masked part. -/
theorem matchComparesTheMaskedBits : Obligations.MatchComparesTheMaskedBits := by
  refine fun d raw => ⟨fun hd => Descriptor.matchesWord_iff_getLsbD hd raw, fun hd => ?_⟩
  exact Bool.eq_false_of_not_eq_true fun h => Bool.eq_false_iff.mp hd (Descriptor.codeWithinMask_of_matchesWord h)

/-- A word that matches holds the code's bits in every field that the mask covers. -/
theorem Descriptor.extractField_eq_of_matchesWord {d : Descriptor} {raw : Word} {r : BitRange}
    (hmatch : d.matchesWord raw = true) (hcovers : d.mask &&& r.fieldMask = r.fieldMask) :
    extractField raw r = extractField d.code r := by
  refine extractField_congr ?_
  rw [← d.matchesWord_iff raw |>.mp hmatch, BitVec.and_assoc, hcovers]

theorem Descriptor.coversOpcode_iff (d : Descriptor) : d.coversOpcode = true ↔ d.mask &&& 0xFC00 = 0xFC00 := by
  simp [coversOpcode]

/-- Where the mask covers the opcode field, OPCODE is the matching word's own (R140, R162 (c)). -/
theorem Descriptor.opcode_eq_of_matchesWord {d : Descriptor} {raw : Word} (hcovers : d.coversOpcode = true)
    (hmatch : d.matchesWord raw = true) : d.opcode = extractField raw opcRange := by
  have hfield : opcRange.fieldMask = 0xFC00 := by decide
  exact (extractField_eq_of_matchesWord hmatch (hfield ▸ d.coversOpcode_iff.mp hcovers)).symm

/-- Settles O19: the descriptor found matches, and its mask covers the opcode field. -/
theorem coveredOpcodeIsTheWordsOpcode : Obligations.CoveredOpcodeIsTheWordsOpcode := by
  intro table raw i d hcovers hscan hd
  obtain ⟨⟨d', hd', hmatch⟩, -⟩ := firstMatch_eq_some_iff_least.mp hscan
  obtain rfl : d' = d := Option.some.inj (hd'.symm.trans hd)
  have hd'covers : d'.coversOpcode = true := List.all_eq_true.mp hcovers d' (List.mem_of_getElem? hd)
  exact (Descriptor.opcode_eq_of_matchesWord hd'covers hmatch).trans (extractField_eq_setWidth_extractLsb' raw opcRange)

/-- A row is shadowed exactly when no word that matches it decodes to it (R139). -/
theorem shadowed_iff {table : List Descriptor} {j : Nat} {dj : Descriptor} (hd : table[j]? = some dj) :
    Shadowed table j ↔ ∀ raw : Word, dj.matchesWord raw = true → firstMatch table raw ≠ some j := by
  have hword : ∀ raw : Word, dj.matchesWord raw = true →
      (firstMatch table raw ≠ some j ↔ ∃ i di, i < j ∧ table[i]? = some di ∧ di.matchesWord raw = true) := by
    intro raw hmatch
    rw [ne_eq, firstMatch_eq_some_iff_of_match hd hmatch]
    simp
  simp only [Shadowed, hd, Option.some.injEq, exists_eq_left']
  exact forall₂_congr fun raw hmatch => (hword raw hmatch).symm

theorem Shadowed.exists_getElem? {table : List Descriptor} {j : Nat} (h : Shadowed table j) :
    ∃ dj, table[j]? = some dj := by
  obtain ⟨dj, hd, -⟩ := h
  exact ⟨dj, hd⟩

theorem Shadowed.firstMatch_ne {table : List Descriptor} {j : Nat} (h : Shadowed table j) (raw : Word) :
    firstMatch table raw ≠ some j := by
  intro hscan
  obtain ⟨⟨dj, hd, hmatch⟩, -⟩ := firstMatch_eq_some_iff_least.mp hscan
  exact (shadowed_iff hd).mp h raw hmatch hscan

/-- A property of every 16-bit number is one of every word. -/
theorem forall_ofNat_iff {p : Word → Prop} : (∀ n < 65536, p (BitVec.ofNat 16 n)) ↔ ∀ raw, p raw := by
  refine ⟨fun h raw => ?_, fun h n _ => h _⟩
  simpa using h raw.toNat raw.isLt

/-- The enumeration of all words reports exactly the shadowed rows (R139). -/
theorem shadowedScan_iff (table : List Descriptor) (j : Nat) : shadowedScan table j = true ↔ Shadowed table j := by
  cases hd : table[j]? with
  | none => simp [shadowedScan, Shadowed, hd]
  | some dj =>
    rw [shadowed_iff hd, ← forall_ofNat_iff]
    simp only [shadowedScan, hd, List.all_eq_true, List.mem_range, Bool.or_eq_true, Bool.not_eq_true', bne_iff_ne]
    refine forall₂_congr fun n _ => ?_
    rw [← Bool.not_eq_true, ← imp_iff_not_or]

/-- The start-up check reports exactly the shadowed rows (R224). -/
theorem mem_startupCheck_shadowed_iff (table : List Descriptor) (j : Nat) :
    j ∈ (startupCheck table).shadowed ↔ Shadowed table j := by
  rw [startupCheck, List.mem_filter, List.mem_range, shadowedScan_iff, and_iff_right_iff_imp]
  intro h
  obtain ⟨dj, hd⟩ := h.exists_getElem?
  exact (List.getElem?_eq_some_iff.mp hd).1

/-- Under the pairwise test every word that matches the later descriptor matches the earlier one (R139). -/
theorem matchesWord_of_pairShadows {di dj : Descriptor} (h : pairShadows di dj = true) {raw : Word}
    (hmatch : dj.matchesWord raw = true) : di.matchesWord raw = true := by
  simp only [pairShadows, Bool.and_eq_true, beq_iff_eq] at h
  obtain ⟨hmask, hcode⟩ := h
  have hsub : dj.mask &&& di.mask = di.mask := by
    ext k hk
    have hbit : (di.mask &&& ~~~dj.mask)[k] = false := by
      rw [hmask]
      exact BitVec.getElem_zero hk
    cases hdi : di.mask[k] with
    | false => simp [hdi]
    | true => simpa [hdi] using hbit
  rw [di.matchesWord_iff, ← hcode, ← (dj.matchesWord_iff raw).mp hmatch, BitVec.and_assoc, hsub]

/-- Settles O18: a shadowed row is one that no word decodes to, which is what the enumeration looks for. -/
theorem shadowedDescriptorsAreNeverReturned : Obligations.ShadowedDescriptorsAreNeverReturned := by
  refine fun table j => ⟨Shadowed.firstMatch_ne, shadowedScan_iff table j, mem_startupCheck_shadowed_iff table j,
    fun i di dj hij hdi hdj hpair => ⟨dj, hdj, fun raw hmatch => ⟨i, di, hij, hdi, ?_⟩⟩⟩
  exact matchesWord_of_pairShadows hpair hmatch

end Sys2Proof
end

section
/-! The match lines and the priority encoder (R132) against the scan. -/
namespace Sys2Proof.Machine

/-- The priority encoder finds the first line that is one. -/
theorem priorityEncode_eq_findIdx? (lines : List Bool) : priorityEncode lines = lines.findIdx? id := by
  ext i
  rw [priorityEncode, List.find?_range_eq_some, List.findIdx?_eq_some_iff_getElem, List.mem_range]
  by_cases hi : i < lines.length
  · have hearlier : (∀ j < i, (!(lines[j]? == some true)) = true) ↔ ∀ (j : Nat) (hj : j < i), ¬id lines[j] = true :=
      forall₂_congr fun j hj => by simp [List.getElem?_eq_getElem (hj.trans hi)]
    rw [hearlier, List.getElem?_eq_getElem hi]
    simp [hi]
  · simp [hi]

theorem priorityEncode_matchLines (table : List Descriptor) (raw : Word) :
    priorityEncode (matchLines table raw) = firstMatch table raw := by
  rw [priorityEncode_eq_findIdx?, matchLines, List.findIdx?_map, firstMatch_eq_findIdx?]
  rfl

/-- Where the scan finds `i` the port shows `d_valid = 1` and `i` as `d_index`, and no error code (R32, R141). -/
theorem decodePorts_of_firstMatch_eq_some {table : List Descriptor} {raw : Word} {i : Nat}
    (hok : tableOk table = true) (hscan : firstMatch table raw = some i) :
    decodePorts table raw =
      .ok { dValid := true, dIndex := some (BitVec.ofNat (indexWidth table.length) i), dErrCode := none } := by
  have hvalid : (matchLines table raw).any id = true := by
    obtain ⟨⟨d, hd, hmatch⟩, -⟩ := firstMatch_eq_some_iff_least.mp hscan
    exact List.any_eq_true.mpr ⟨_, List.mem_map_of_mem (List.mem_of_getElem? hd), hmatch⟩
  simp [decodePorts, onRomPorts_ok hok, hvalid, priorityEncode_matchLines, hscan]

/-- Settles O15: the port shows the scan's result, found or not, and an index below N fits `d_index`. -/
theorem priorityEncoderComputesTheScan : Obligations.PriorityEncoderComputesTheScan := by
  intro table raw hok
  cases hscan : firstMatch table raw with
  | none => exact ⟨_, decodePorts_of_firstMatch_eq_none hok hscan, rfl⟩
  | some i =>
    have hfits : i < 2 ^ indexWidth table.length := lt_two_pow_indexWidth (firstMatch_lt hscan)
    exact ⟨_, decodePorts_of_firstMatch_eq_some hok hscan, rfl, by simp [Nat.mod_eq_of_lt hfits], rfl⟩

/-- Settles O13: the scan finds an index below N or nothing. -/
theorem decodeIsTotal : Obligations.DecodeIsTotal := by
  intro s raw rest h hok
  cases hscan : firstMatch s.config.descTable raw with
  | none => exact .inr (step_decode_fault h hok hscan)
  | some i => exact .inl ⟨i, firstMatch_lt hscan, (step_decode_eq_next_iff h hok).mpr hscan⟩

end Sys2Proof.Machine
end

section
/-! What SOURCE_OK fixes (R69, R74 to R80) of the rows it names and of the words of the source's scenarios. -/
namespace Sys2Proof

/-- Settles O28: the ten rows have ten different indices below the table's length. -/
theorem admissibleTableHasTenRows : Obligations.AdmissibleTableHasTenRows := by
  rintro table ⟨w, facts⟩
  have hindices : w.rows.map RowAt.index ⊆ List.range table.length := by
    intro i hi
    obtain ⟨r, hr, rfl⟩ := List.mem_map.mp hi
    exact List.mem_range.mpr (List.getElem?_eq_some_iff.mp (facts.rowsInTable r hr)).1
  calc 10
    _ = (w.rows.map RowAt.index).length := rfl
    _ ≤ (List.range table.length).length := (facts.rowsDistinct.subperm hindices).length_le
    _ = table.length := List.length_range

/-- The row that the scan finds is the one that stands at its index, and it matches. -/
theorem RowAt.matchesWord_of_firstMatch {table : List Descriptor} {r : RowAt} (hr : r.inTable table) {raw : Word}
    (hscan : firstMatch table raw = some r.index) : r.desc.matchesWord raw = true := by
  obtain ⟨⟨d, hd, hmatch⟩, -⟩ := firstMatch_eq_some_iff_least.mp hscan
  obtain rfl : r.desc = d := Option.some.inj (hr.symm.trans hd)
  exact hmatch

section
variable {table : List Descriptor} {w : SourceRows} (facts : SourceFacts table w)
include facts

theorem SourceFacts.nop_inTable : w.nop.inTable table :=
  facts.rowsInTable _ (by simp [SourceRows.rows])

theorem SourceFacts.load_inTable : w.load.inTable table :=
  facts.rowsInTable _ (by simp [SourceRows.rows])

theorem SourceFacts.addc_inTable : w.addc.inTable table :=
  facts.rowsInTable _ (by simp [SourceRows.rows])

/-- S4: LOAD's row matches `0xC223` (R75). -/
theorem SourceFacts.load_matchesWord : w.load.desc.matchesWord 0xC223 = true :=
  RowAt.matchesWord_of_firstMatch facts.load_inTable facts.loadFirst

/-- S5: ADDC's row matches `0x8381` (R76). -/
theorem SourceFacts.addc_matchesWord : w.addc.desc.matchesWord 0x8381 = true :=
  RowAt.matchesWord_of_firstMatch facts.addc_inTable facts.addcFirst

/-- ADDC's code is ADD's with bit 0 turned over (R76). -/
theorem SourceFacts.addc_code_eq_xor : w.addc.desc.code = w.add.desc.code ^^^ 0x0001 := by
  rw [← facts.addBit0, ← BitVec.xor_assoc, BitVec.xor_self, BitVec.zero_xor]

/-- ADDC's code is ADD's with bit 0 set, where ADD's is clear (R71 (b)). -/
theorem SourceFacts.addc_code_eq_or (hclear : w.add.desc.code.getLsbD 0 = false) :
    w.addc.desc.code = w.add.desc.code ||| 0x0001 := by
  rw [facts.addc_code_eq_xor]
  ext k hk
  cases k with
  | zero => simpa using hclear
  | succ k => simp

/-- Bit 0 lies below the opcode field, so ADD and ADDC have one OPCODE (R76). -/
theorem SourceFacts.add_opcode : w.add.desc.opcode = w.addc.desc.opcode := by
  refine extractField_congr ?_
  have hbelow : opcRange.fieldMask[0] = false := by decide
  rw [facts.addc_code_eq_xor]
  ext k hk
  cases k with
  | zero => simp [hbelow]
  | succ k => simp

end

/-- A mask that covers the opcode field and bit 0 covers `0xFC01`. -/
theorem Descriptor.mask_and_0xFC01 {d : Descriptor} (hcovers : d.coversOpcode = true)
    (hbit0 : d.mask.getLsbD 0 = true) : d.mask &&& 0xFC01 = 0xFC01 := by
  have hone : d.mask &&& 1 = 1 := by
    refine (BitVec.and_one_eq_setWidth_ofBool_getLsbD).trans ?_
    rw [hbit0]
    rfl
  calc d.mask &&& 0xFC01
    _ = d.mask &&& (0xFC00 ||| 1) := rfl
    _ = (d.mask &&& 0xFC00) ||| (d.mask &&& 1) := BitVec.and_or_distrib_left
    _ = 0xFC01 := by rw [d.coversOpcode_iff.mp hcovers, hone]; rfl

/-- Settles O30: a covered opcode field is the scenario word's, and bit 0 lies outside it. -/
theorem readingsFixTheOpcodes : Obligations.ReadingsFixTheOpcodes := by
  intro table w facts readings
  obtain ⟨-, hnopCode, -⟩ := facts.nopRow
  obtain ⟨-, hbit0, haddClear, -⟩ := readings.addMasks
  obtain ⟨-, -, hopcode⟩ := readings.incDecMasks
  have hload : w.load.desc.opcode = 0x30 :=
    Descriptor.opcode_eq_of_matchesWord (readings.namedCoverOpcode _ (by simp)) facts.load_matchesWord
  have haddc : w.addc.desc.opcode = 0x20 :=
    Descriptor.opcode_eq_of_matchesWord (readings.namedCoverOpcode _ (by simp)) facts.addc_matchesWord
  refine ⟨?_, hload, facts.add_opcode.trans haddc, haddc, hopcode, facts.shrotOpcode,
    facts.addc_code_eq_or haddClear,
    Descriptor.mask_and_0xFC01 (readings.namedCoverOpcode _ (by simp)) hbit0⟩
  rw [Descriptor.opcode, hnopCode]
  decide

/-- What the classifier says of a row under a class map (R143). -/
def Descriptor.entry (classes : Vector InstrClass 64) (d : Descriptor) : Classification where
  opcode := d.opcode
  mask := d.mask
  code := d.code
  name := d.name
  instrClass := d.instrClass classes

end Sys2Proof

namespace Sys2Proof.Machine

section
variable {c : Config} {k : Nat} {d : Descriptor} (hok : tableOk c.descTable = true) (hd : c.descTable[k]? = some d)
include hok hd

/-- CLASSIFY_WORD answers with the row that the scan finds and its entry (R143). -/
theorem answer_classifyWord_row {raw : Word} (hscan : firstMatch c.descTable raw = some k) :
    answer c (.classifyWord raw) = .next (.classifiedWord k (d.entry c.classOf)) := by
  obtain ⟨hk, hfound⟩ := (firstMatch_eq_some_iff _ _ _).mp hscan
  obtain ⟨_, rfl⟩ := descriptorAt_eq hd
  exact (onRom_ok hok _).trans (identify_some hfound _)

end

theorem answer_classifyWord_none {c : Config} (hok : tableOk c.descTable = true) {raw : Word}
    (hscan : firstMatch c.descTable raw = none) :
    answer c (.classifyWord raw) = .fault (.decodeError { code := raw }) :=
  (onRom_ok hok _).trans (identify_none hscan _)

/-- A word that decodes to a row is classified by the row's name and its own masked part. -/
theorem step_classifyWord_row {s : State} {raw : Word} {r : RowAt} (hok : tableOk s.config.descTable = true)
    (hr : r.inTable s.config.descTable) (hscan : firstMatch s.config.descTable raw = some r.index) :
    ∃ i info, info.name = r.desc.name ∧ info.code = raw &&& info.mask ∧
      step (s.present (.classifyWord raw)) =
        .next ((s.present (.classifyWord raw)).complete (.classifyWord raw) (.classifiedWord i info)) := by
  have hmatch := (r.desc.matchesWord_iff raw).mp (RowAt.matchesWord_of_firstMatch hr hscan)
  exact ⟨_, _, rfl, hmatch.symm, step_next_of_answer rfl (answer_classifyWord_row hok hr hscan)⟩

/-- Settles O29: SOURCE_OK names the row that the scan finds for each of the words, or that it finds none. -/
theorem scenarioWordsInEveryAdmissibleTable : Obligations.ScenarioWordsInEveryAdmissibleTable := by
  rintro s ⟨w, facts⟩
  have hok := facts.codesWithinMasks
  obtain ⟨hnop, hcode, -⟩ := facts.nopRow
  obtain ⟨-, haddc⟩ := facts.addNames
  refine ⟨?_, ?_, ?_, ?_⟩
  · obtain ⟨i, info, hname, hinfo, hstep⟩ := step_classifyWord_row hok facts.nop_inTable facts.nopFirst
    exact ⟨i, info, hname.trans hnop, hinfo.trans BitVec.zero_and, hstep⟩
  · rw [← facts.loadName]
    exact step_classifyWord_row hok facts.load_inTable facts.loadFirst
  · rw [← haddc]
    exact step_classifyWord_row hok facts.addc_inTable facts.addcFirst
  · rw [step_present]
    exact State.take_eq_fault_iff.mpr (answer_classifyWord_none hok facts.unassigned)

end Sys2Proof.Machine
end

section
/-! REF_TABLE (R86) against the hand-written decoder. No word matches two of its rows, so the row a word matches is the
one that the scan finds; and a word that matches a row decodes to an instruction of that row. -/
namespace Sys2Proof

/-- The descriptors differ at a bit that both masks hold, so no word matches both. -/
def Descriptor.excludes (d e : Descriptor) : Bool :=
  (d.code ^^^ e.code) &&& (d.mask &&& e.mask) != 0

theorem Descriptor.matchesWord_eq_false_of_excludes {d e : Descriptor} (h : d.excludes e = true) {raw : Word}
    (he : e.matchesWord raw = true) : d.matchesWord raw = false := by
  refine Bool.eq_false_of_not_eq_true fun hd => bne_iff_ne.mp h ?_
  rw [← (d.matchesWord_iff raw).mp hd, ← (e.matchesWord_iff raw).mp he]
  ext k hk
  cases hd : d.mask[k] <;> cases he : e.mask[k] <;> simp [hd, he]

/-- Where every row excludes every later one, the scan finds whichever row matches. -/
theorem firstMatch_of_pairwise_excludes {table : List Descriptor} (h : table.Pairwise (Descriptor.excludes · ·))
    {i : Nat} {d : Descriptor} {raw : Word} (hd : table[i]? = some d) (hmatch : d.matchesWord raw = true) :
    firstMatch table raw = some i := by
  refine (firstMatch_eq_some_iff_of_match hd hmatch).mpr fun j dj hj hdj => ?_
  obtain ⟨hi, rfl⟩ := List.getElem?_eq_some_iff.mp hd
  obtain ⟨hj', rfl⟩ := List.getElem?_eq_some_iff.mp hdj
  exact Descriptor.matchesWord_eq_false_of_excludes (List.pairwise_iff_getElem.mp h j i hj' hi hj) hmatch

theorem refTable_pairwise_excludes : refTable.Pairwise (Descriptor.excludes · ·) := by
  decide

theorem refTable_tableOk : tableOk refTable = true :=
  (tableOk_iff refTable).mpr Laws.refTable_codesWithinMasks

/-- The scan of REF_TABLE finds an instruction's word at the instruction's own row. -/
theorem firstMatch_refTable_encode {i : Instr} : firstMatch refTable (encode i) = some i.row := by
  obtain ⟨hrow, hwf⟩ := i.rowWellFormed
  obtain ⟨hcode, hfields⟩ := i.wf_iff.mp hwf
  exact firstMatch_of_pairwise_excludes refTable_pairwise_excludes hrow (matchesWord_assembleWord hcode hfields)

/-- The row's mask covers the fields it fixes, and its code holds them. -/
theorem Instr.fixedFields_of_descriptor (i : Instr) :
    ∀ f ∈ i.fixedFields, i.descriptor.mask &&& f.range.fieldMask = f.range.fieldMask ∧
      f.IsFieldOf i.descriptor.code := by
  cases i <;> simp only [fixedFields, descriptor, FieldValue.IsFieldOf] <;> decide

/-- A word that matches an instruction's row and holds its operands decodes to the instruction. -/
theorem decodeWord_of_matchesWord {raw : Word} {i : Instr} (hmatch : i.descriptor.matchesWord raw = true)
    (hfields : ∀ f ∈ i.fields, f.IsFieldOf raw) : decodeWord raw = .ok i := by
  refine decodeWord_of_areFieldsOf (List.forall_mem_append.mpr ⟨fun f hf => ?_, hfields⟩)
  obtain ⟨hcovers, hvalue⟩ := i.fixedFields_of_descriptor f hf
  exact hvalue.trans (Descriptor.extractField_eq_of_matchesWord hmatch hcovers).symm

/-- Every row has an instruction with the operands that a word holds. -/
theorem exists_instr_of_mem_refTable (raw : Word) {d : Descriptor} (hd : d ∈ refTable) :
    ∃ i : Instr, i.descriptor = d ∧ ∀ f ∈ i.fields, f.IsFieldOf raw := by
  have hAB := upperFields_areFieldsOf raw
  have hfull := areFieldsOf_append hAB (areFieldsOf_pair (fCField_isFieldOf raw) (f0Field_isFieldOf raw))
  have hbit0 := areFieldsOf_append hAB (List.forall_mem_singleton.mpr (fCField_isFieldOf raw))
  have hbit3 := areFieldsOf_append hAB (areFieldsOf_pair (fC21Field_isFieldOf raw) (f0Field_isFieldOf raw))
  have hbits31 := areFieldsOf_append hAB (List.forall_mem_singleton.mpr (f0Field_isFieldOf raw))
  simp only [refTable, List.mem_cons, List.not_mem_nil, or_false] at hd
  rcases hd with rfl | rfl | rfl | rfl | rfl | rfl | rfl | rfl | rfl | rfl
  · exact ⟨.nop .., rfl, hfull⟩
  · exact ⟨.load .., rfl, hfull⟩
  · exact ⟨.add .., rfl, hbit0⟩
  · exact ⟨.addc .., rfl, hbit0⟩
  · exact ⟨.xInc .., rfl, hbit3⟩
  · exact ⟨.xDec .., rfl, hbit3⟩
  · exact ⟨.xShrot0 .., rfl, hbits31⟩
  · exact ⟨.xShrot1 .., rfl, hbits31⟩
  · exact ⟨.xShrot2 .., rfl, hbits31⟩
  · exact ⟨.xShrot3 .., rfl, hbits31⟩

/-- The decoder by hand and the scan of REF_TABLE give one row, or reject the word alike. -/
theorem firstMatch_refTable (raw : Word) : firstMatch refTable raw = (decodeWord raw).toOption.map Instr.row := by
  cases h : decodeWord raw with
  | ok i =>
    rw [← encode_of_decodeWord h]
    exact firstMatch_refTable_encode
  | error e =>
    refine firstMatch_eq_none_iff_forall.mpr fun d hd => Bool.eq_false_of_not_eq_true fun hmatch => ?_
    obtain ⟨i, rfl, hfields⟩ := exists_instr_of_mem_refTable raw hd
    exact absurd (h.symm.trans (decodeWord_of_matchesWord hmatch hfields)) nofun

/-- `d_valid` says whether the scan finds an instruction (R132). -/
theorem Machine.decodePorts_dValid {table : List Descriptor} (hok : tableOk table = true) (raw : Word) :
    (decodePorts table raw).toOption.map DecodeOut.dValid = some (firstMatch table raw).isSome := by
  cases hscan : firstMatch table raw with
  | none => rw [decodePorts_of_firstMatch_eq_none hok hscan]; rfl
  | some i => rw [decodePorts_of_firstMatch_eq_some hok hscan]; rfl

/-- Settles O25: the scan and the decoder agree, and the port shows what the scan finds. -/
theorem opcodeTableDecoderAgreesWithRomScan : Obligations.OpcodeTableDecoderAgreesWithRomScan := by
  refine fun raw => ⟨firstMatch_refTable raw, ?_⟩
  rw [Machine.decodePorts_dValid refTable_tableOk, firstMatch_refTable]
  cases decodeWord raw <;> rfl

/-- Every row of REF_TABLE is found by its own code, so none is shadowed (R139). -/
theorem not_shadowed_refTable (j : Nat) : ¬ Shadowed refTable j := by
  intro h
  obtain ⟨d, hd⟩ := h.exists_getElem?
  have hmatch := Descriptor.matchesWord_code (Laws.refTable_codesWithinMasks d (List.mem_of_getElem? hd))
  exact h.firstMatch_ne d.code (firstMatch_of_pairwise_excludes refTable_pairwise_excludes hd hmatch)

/-- The rows of REF_TABLE in the places that SOURCE_OK names (R86). -/
def refSourceRows : SourceRows where
  nop := { index := 0, desc := nopRow }
  load := { index := 1, desc := loadRow }
  add := { index := 2, desc := addRow }
  addc := { index := 3, desc := addcRow }
  inc := { index := 4, desc := xIncRow }
  dec := { index := 5, desc := xDecRow }
  shrot0 := { index := 6, desc := xShrot0Row }
  shrot1 := { index := 7, desc := xShrot1Row }
  shrot2 := { index := 8, desc := xShrot2Row }
  shrot3 := { index := 9, desc := xShrot3Row }
  shrotBit := 1

theorem refSourceRows_inTable : ∀ r ∈ refSourceRows.rows, r.inTable refTable := by
  unfold RowAt.inTable
  decide

/-- A row of REF_TABLE is the first match of every word that matches it. -/
theorem firstMatch_refTable_row {r : RowAt} (hr : r ∈ refSourceRows.rows) {raw : Word}
    (hmatch : r.desc.matchesWord raw = true) : firstMatch refTable raw = some r.index :=
  firstMatch_of_pairwise_excludes refTable_pairwise_excludes (refSourceRows_inTable r hr) hmatch

/-- REF_TABLE carries the source's facts: the rows are found by the scenario words because they exclude each other, and
the rest compares the ten rows' constants. -/
theorem refSourceRows_facts : SourceFacts refTable refSourceRows where
  codesWithinMasks := refTable_tableOk
  rowsInTable := refSourceRows_inTable
  rowsDistinct := by decide
  nopRow := by decide
  nopFirst := firstMatch_refTable_row (by decide) (by decide)
  loadName := rfl
  loadFirst := firstMatch_refTable_row (by decide) (by decide)
  addNames := ⟨rfl, rfl⟩
  addcFirst := firstMatch_refTable_row (by decide) (by decide)
  addBit0 := by decide
  incDecBit3 := by decide
  shrotOpcode := by decide
  shrotCodesDistinct := by decide
  shrotBelowOpcode := by decide
  shrotSubField := by decide
  unassigned := by decide

/-- REF_TABLE's masks and codes are as the spec reads the source's sentences (R71, R86). -/
theorem refSourceRows_readings : SourceReadings refSourceRows where
  nopMask := rfl
  addMasks := by decide
  namedCoverOpcode := by decide
  incDecMasks := by decide
  shrotMasks := by decide

/-- Settles O31: the rows carry the source's facts and readings (R86), and since they exclude each other each row is
found by its own code. -/
theorem referenceTableIsAdmissible : Obligations.ReferenceTableIsAdmissible :=
  ⟨⟨refSourceRows, refSourceRows_facts, refSourceRows_readings⟩, refTable_tableOk, by decide, rfl, by decide,
    not_shadowed_refTable⟩

/-- Settles O26: the decoder evaluates on each of the written words. -/
theorem writtenWordsDecode : Obligations.WrittenWordsDecode := by
  unfold Obligations.WrittenWordsDecode
  decide

/-- Placing one operand into two words keeps how they differ outside its field. -/
theorem replaceField_xor {bits w w' : Word} {r : BitRange} (hfits : bits.toNat < 2 ^ r.width)
    (h : r.fieldMask &&& (w ^^^ w') = 0) : replaceField .leak w bits r ^^^ replaceField .leak w' bits r = w ^^^ w' := by
  rw [replaceField_of_fits hfits, replaceField_of_fits hfits, ← shiftLeft_start_and_fieldMask hfits]
  ext p hp
  have hbit : (r.fieldMask &&& (w ^^^ w'))[p] = false := by
    rw [h]
    exact BitVec.getElem_zero hp
  cases hmask : r.fieldMask[p] with
  | false => simp [hmask]
  | true => simpa [hmask] using hbit.symm

/-- Words assembled with the same operands differ as the words they start from. -/
theorem assembleWord_xor {fs : List FieldValue} {w w' : Word}
    (hfs : ∀ f ∈ fs, f.value.toNat < 2 ^ f.range.width ∧ f.range.fieldMask &&& (w ^^^ w') = 0) :
    assembleWord .leak w fs ^^^ assembleWord .leak w' fs = w ^^^ w' := by
  induction fs generalizing w w' with
  | nil => rfl
  | cons f fs ih =>
    obtain ⟨⟨hfits, hm⟩, hrest⟩ := List.forall_mem_cons.mp hfs
    have hfirst := replaceField_xor hfits hm
    rw [assembleWord_cons, assembleWord_cons, ih (hfirst ▸ hrest), hfirst]

/-- Instructions of one family with the same operands have words that differ as their rows' codes do. -/
theorem encode_xor {i j : Instr} (d d' : Descriptor) {c : Word} (hi : i.descriptor = d) (hj : j.descriptor = d')
    (hfields : i.fields = j.fields) (hc : d.code ^^^ d'.code = c ∧ d.mask &&& c = c) : encode i ^^^ encode j = c := by
  subst hi hj
  obtain ⟨rfl, hmask⟩ := hc
  obtain ⟨-, hwf⟩ := i.wf_iff.mp i.rowWellFormed.2
  rw [encode, encode, ← hfields]
  refine assembleWord_xor fun f hf => ?_
  obtain ⟨-, hfits, houtside⟩ := (f.wf_iff _).mp ((fieldsWellFormed_iff _ _).mp hwf f hf)
  refine ⟨hfits, ?_⟩
  rw [← hmask, ← BitVec.and_assoc, houtside]
  exact BitVec.zero_and

/-- The word of an instruction that fixes `F_C` holds that value there. -/
theorem extractField_encode_fCRange {i : Instr} {fC : BitVec 3} (h : fCField fC ∈ i.fixedFields) :
    extractField (encode i) fCRange = fC.setWidth 16 :=
  (Instr.encode_areFieldsOf i.rowWellFormed.2 _ (List.mem_append_left _ h)).symm

/-- Settles O27: the words differ as the rows' codes do, and the shift/rotate rows fix `F_C`. -/
theorem familyMembersDifferInTheirSubField : Obligations.FamilyMembersDifferInTheirSubField := by
  refine ⟨fun _ _ _ => encode_xor addRow addcRow rfl rfl rfl (by decide),
    fun _ _ _ _ => encode_xor xIncRow xDecRow rfl rfl rfl (by decide),
    fun _ _ _ => ⟨encode_xor xShrot0Row xShrot1Row rfl rfl rfl (by decide),
      encode_xor xShrot0Row xShrot2Row rfl rfl rfl (by decide),
      encode_xor xShrot0Row xShrot3Row rfl rfl rfl (by decide)⟩,
    fun _ _ _ => ⟨?_, ?_, ?_, ?_⟩⟩
  · exact extractField_encode_fCRange (fC := 0) (List.mem_cons_of_mem _ List.mem_cons_self)
  · exact extractField_encode_fCRange (fC := 1) (List.mem_cons_of_mem _ List.mem_cons_self)
  · exact extractField_encode_fCRange (fC := 2) (List.mem_cons_of_mem _ List.mem_cons_self)
  · exact extractField_encode_fCRange (fC := 3) (List.mem_cons_of_mem _ List.mem_cons_self)

end Sys2Proof
end

section
/-! The classifier on a row (R162, R164, R166): CODE and CLASS, and the ports' wiring (R168). -/
namespace Sys2Proof

theorem Descriptor.opcode_setWidth (d : Descriptor) : d.opcode.setWidth 6 = d.code.extractLsb' 10 6 := by
  rw [d.opcode_eq_setWidth, BitVec.setWidth_setWidth_of_le _ (by decide), BitVec.setWidth_eq]

/-- CLASS is the map's entry at the code's opcode field (R166, R168). -/
theorem Descriptor.instrClass_eq (classes : Vector InstrClass 64) (d : Descriptor) :
    d.instrClass classes = classes.get (d.code.extractLsb' 10 6).toFin := by
  rw [instrClass, d.opcode_setWidth]

/-- One OPCODE is one opcode field (R167). -/
theorem Descriptor.opcode_eq_opcode_iff (d e : Descriptor) :
    d.opcode = e.opcode ↔ d.code.extractLsb' 10 6 = e.code.extractLsb' 10 6 := by
  constructor
  · intro h
    rw [← d.opcode_setWidth, h, e.opcode_setWidth]
  · intro h
    rw [d.opcode_eq_setWidth, h, e.opcode_eq_setWidth]

/-- OPCODE as a shift (R161). -/
theorem Descriptor.opcode_eq_ushiftRight (d : Descriptor) : d.opcode = d.code >>> 10 := by
  refine BitVec.eq_of_getLsbD_eq fun k hk => ?_
  rw [opcode, getLsbD_extractField, opcRange_width, opcRange_start_toNat, BitVec.getLsbD_ushiftRight]
  by_cases h : k < 6
  · rw [decide_eq_true h, Bool.true_and]
  · rw [BitVec.getLsbD_of_ge _ _ (by omega), Bool.and_false]

namespace Machine

section
variable {c : Config} {i : Nat} {d : Descriptor} (hok : tableOk c.descTable = true) (hd : c.descTable[i]? = some d)
include hok hd

theorem answer_code_row : answer c (.code i) = .next (.code d.code) :=
  onRom_atPort_row hok hd fun d => .code d.code

theorem answer_classOf_row : answer c (.classOf i) = .next (.instrClass (d.instrClass c.classOf)) :=
  onRom_atPort_row hok hd fun d => .instrClass (d.instrClass c.classOf)

theorem answer_classify_row : answer c (.classify i) = .next (.classified (d.entry c.classOf)) :=
  onRom_atPort_row hok hd fun d => .classified (d.entry c.classOf)

end

/-- Settles O34: CODE answers from the row, whose code matches it, so the scan finds the row unless an earlier one
matches. -/
theorem codeAnswersAndDecodesBack : Obligations.CodeAnswersAndDecodesBack := by
  intro s i d rest hok hd
  have hcode := (tableOk_iff _).mp hok d (List.mem_of_getElem? hd)
  refine ⟨fun h => step_next_of_answer h (answer_code_row hok hd), d.codeWithinMask_iff.mp hcode, fun h => ?_⟩
  rw [step_decode_eq_next_iff h hok]
  exact firstMatch_eq_some_iff_of_match hd (Descriptor.matchesWord_code hcode)

/-- Settles O35: CLASS reads the opcode field of the code and nothing else of the row. -/
theorem classFollowsTheOpcodeFamily : Obligations.ClassFollowsTheOpcodeFamily := by
  refine ⟨fun s i d rest h hok hd => ?_, Descriptor.opcode_eq_opcode_iff, fun classes d e h => ?_⟩
  · rw [← d.instrClass_eq]
    exact step_next_of_answer h (answer_classOf_row hok hd)
  · rw [Descriptor.instrClass, h, Descriptor.instrClass]

/-- The wiring on an index below N: the row's values, with the class as its port code (R168). -/
theorem classifyPorts_row {c : Config} {index : IndexPort c.descTable.length} {d : Descriptor}
    (hok : tableOk c.descTable = true) (hd : c.descTable[index.toNat]? = some d) :
    classifyPorts c index = .ok
      { cIndexErr := false, cOpcode := some d.opcode, cMask := some d.mask, cCode := some d.code,
        cClass := some (d.instrClass c.classOf).portCode } := by
  have hlt := (List.getElem?_eq_some_iff.mp hd).1
  have hwiring : (0#10 ++ d.code.extractLsb' 10 6 : BitVec 16) = d.opcode := by
    rw [d.opcode_eq_setWidth, BitVec.setWidth_eq_append (by decide)]
    rfl
  rw [classifyPorts, onRomPorts_ok hok, hd, indexErr_of_lt hlt, d.instrClass_eq]
  simp only [hwiring]

/-- Settles O41: below N the wiring shows the row that the request answers from, and above it the index error alone. -/
theorem classifyPortsAgreeWithRequests : Obligations.ClassifyPortsAgreeWithRequests := by
  intro c index hok
  rcases Nat.lt_or_ge index.toNat c.descTable.length with hlt | hge
  · have hd := List.getElem?_eq_getElem hlt
    rw [answer_classify_row hok hd]
    exact classifyPorts_row hok hd
  · have hfault : answer c (.classify index.toNat) = .fault (.indexFault index.toNat) :=
      (onRom_ok hok _).trans (atPort_ge hge _)
    rw [hfault]
    exact classifyPorts_ge hok hge

/-- Settles O37: every accessor of the port goes through the one index check. -/
theorem indexOutOfTableFaults : Obligations.IndexOutOfTableFaults := by
  intro s index rest q hok hge hq h
  refine ⟨?_, classifyPorts_ge hok hge⟩
  have hfault := fun go => (onRom_ok hok _).trans (atPort_ge hge go)
  rw [step_of_pending h]
  simp only [List.mem_cons, List.not_mem_nil, or_false] at hq
  rcases hq with rfl | rfl | rfl | rfl | rfl <;> exact serve_fault (hfault _)

end Machine

end Sys2Proof
end

section
/-! The ISA instructions: the meaning of each is the block's answer about its word (R180, R194). -/
namespace Sys2Proof.Machine

theorem ask_eq_decode {s : State}
    (h : ∀ w rest, s.pending ≠ .classifyWord w :: rest ∧ s.pending ≠ .execute w :: rest) (raw : Word) :
    s.ask raw = .decode raw := by
  unfold State.ask
  split
  case h_1 w rest hp => exact absurd hp (h w rest).1
  case h_2 w rest hp => exact absurd hp (h w rest).2
  case h_3 => rfl

theorem exec_of_ask {i : Instr} {s : State} {q : Request} (hask : s.ask (encode i) = q) :
    exec i s = s.take q (answer s.config q) := by
  rw [exec_eq_serve, hask, serve]

/-- Settles O43: the question is DECODE, and the scan of REF_TABLE finds the instruction's own row. -/
theorem everyInstructionIsIdentified : Obligations.EveryInstructionIsIdentified := by
  intro i s htable h
  have hok : tableOk s.config.descTable = true := htable ▸ refTable_tableOk
  have hscan : firstMatch s.config.descTable (encode i) = some i.row := htable ▸ firstMatch_refTable_encode
  rw [exec_of_ask (ask_eq_decode h _), answer_decode_eq_next_iff.mpr ⟨hok, hscan⟩, State.take_next]

/-- Settles O44: the question is CLASSIFY_WORD, and the row that the scan of REF_TABLE finds is the instruction's. -/
theorem everyInstructionIsClassified : Obligations.EveryInstructionIsClassified := by
  intro i s w rest htable h
  have hok : tableOk s.config.descTable = true := htable ▸ refTable_tableOk
  have hscan : firstMatch s.config.descTable (encode i) = some i.row := htable ▸ firstMatch_refTable_encode
  have hrow : s.config.descTable[i.row]? = some i.descriptor := htable ▸ i.getElem?_row
  rw [exec_of_ask (ask_classifyWord h _), answer_classifyWord_row hok hrow hscan, State.take_next, Descriptor.entry,
    i.descriptor.opcode_eq_ushiftRight, i.descriptor.instrClass_eq]

/-- Settles O45: the question is DECODE of the instruction's word, which the table's scan decides. -/
theorem instructionsUnderASuppliedTable : Obligations.InstructionsUnderASuppliedTable := by
  intro i s w rest h hok
  have hexec := exec_of_ask (ask_decode h (encode i))
  refine ⟨fun k hscan => ?_, fun hscan => ?_⟩
  · rw [hexec, answer_decode_eq_next_iff.mpr ⟨hok, hscan⟩, State.take_next]
  · rw [hexec, answer_decode_eq_fault_iff.mpr ⟨hok, hscan, rfl⟩, State.take_fault]

/-- Settles O46: an instruction that goes on has been answered, and an answer is one record and one request less. -/
theorem everyInstructionFrame : Obligations.EveryInstructionFrame := by
  intro i s t h
  rw [exec_eq_serve] at h
  obtain ⟨response, hanswer, rfl⟩ := serve_cases h
  exact ⟨State.complete_config .., State.complete_pending .., response, State.complete_served .., hanswer⟩

/-- A step whose head request presents an instruction's word runs the instruction. -/
theorem step_eq_exec {s : State} {q : Request} {rest : List Request} {raw : Word} {i : Instr}
    (h : s.pending = q :: rest) (hq : q.word? = some raw) (hi : decodeWord raw = .ok i) : step s = exec i s := by
  rw [step_of_pending h, exec_eq_serve, encode_of_decodeWord hi, ask_head h hq]

/-- A table word is a word that the decoder reads. -/
theorem decodeWord_of_decodeTableWord {nbits w : Nat} {i : Instr} (h : decodeTableWord nbits w = some i) :
    decodeWord (BitVec.ofNat 16 w) = .ok i := by
  unfold decodeTableWord at h
  split at h
  · split at h
    next j hj => rw [hj, Option.some.inj h]
    next => cases h
  · cases h

/-- Settles O47: the head request's word is the instruction's, so the step and the instruction ask the same. -/
theorem stepRunsTheDecodedInstruction : Obligations.StepRunsTheDecodedInstruction := by
  refine ⟨fun s q rest raw i h hq hi => step_eq_exec h hq hi, fun s nbits w i h => ?_⟩
  exact step_eq_exec (q := .decode (BitVec.ofNat 16 w)) rfl rfl (decodeWord_of_decodeTableWord h)

/-- Settles O48: with nothing presented a step is idle, and else it is the block's answer to the head request. -/
theorem stepAnswersTheHeadRequest : Obligations.StepAnswersTheHeadRequest :=
  fun _ => ⟨step_idle, fun _ _ h => step_of_pending h⟩

/-- Settles O49: the cause of each fault names its request, which rules the other kinds out. -/
theorem eachRequestHasOneFaultKind : Obligations.EachRequestHasOneFaultKind := by
  refine fun c q => ⟨fun f h => ?_, fun response h => by rw [h]; rfl⟩
  have hstatus : statusOf (answer c q) = some f.status := by rw [h]; rfl
  obtain ⟨raw, hq, -, rfl⟩ | ⟨r, ⟨value, rfl⟩ | ⟨value, bits, rfl⟩, -, rfl⟩ | ⟨index, hq, -, rfl⟩ :=
    answer_fault_cases h
  · cases q <;> cases hq <;> exact ⟨rfl, hstatus⟩
  · exact ⟨rfl, hstatus⟩
  · exact ⟨rfl, hstatus⟩
  · simp only [List.mem_cons, List.not_mem_nil, or_false] at hq
    rcases hq with rfl | rfl | rfl | rfl | rfl <;> exact ⟨rfl, hstatus⟩

end Sys2Proof.Machine
end

section
/-! Sessions, runs and image loops: what a caller gets from several requests (R48, R180, R204, R206). -/
namespace Sys2Proof.Machine

/-- A session ends in the refusal of its first refused request, and in no other (R180). -/
theorem Session.run_eq_error_iff {x : Session} {qs : List Request} {r : Refusal} :
    x.run qs = .error r ↔ (qs.filterMap fun q => refusalOf (answer x.state.config q)).head? = some r := by
  induction qs generalizing x with
  | nil => simp [run]
  | cons q qs ih =>
    cases hq : refusalOf (answer x.state.config q) with
    | none => simp [run, request_of_not_refused hq, ih, hq]
    | some r' => simp [run, request_of_refused hq, hq]

/-- Settles O55: the session has recorded the answers, each as the request gets it alone, or ends in the first
refusal. -/
theorem sessionAnswersEachRequestAlone : Obligations.SessionAnswersEachRequestAlone := by
  refine fun s qs => ⟨fun h => ⟨_, session_eq_ok_iff.mpr ⟨h, rfl⟩, rfl, rfl, rfl, List.nil_append _⟩, fun r => ?_⟩
  exact Session.run_eq_error_iff

/-- A run whose first step goes on continues from the next state. -/
theorem run_succ_next {M : Host.Core} {s u : M.State} (h : M.step s = .next u) (k : Nat) :
    M.run (k + 1) s = M.run k u := by
  rw [Host.Core.run, h]

/-- By induction on the pending requests: a step answers the head one and leaves the others pending. -/
theorem run_answers_pending (qs : List Request) {s : State} (hpending : s.pending = qs)
    (h : ∀ q ∈ qs, q.Answered s.config) :
    ∃ t, Host.Core.run core qs.length s = .next t ∧ t.pending = [] ∧ t.config = s.config ∧
      ∃ answered, t.served = s.served ++ answered ∧ answered.map Prod.fst = qs ∧
        ∀ q response, (q, response) ∈ answered → answer s.config q = .next response := by
  induction qs generalizing s with
  | nil =>
    exact ⟨s, rfl, hpending, rfl, [], (List.append_nil _).symm, rfl, fun _ _ hmem => absurd hmem List.not_mem_nil⟩
  | cons q qs ih =>
    obtain ⟨⟨response, hq⟩, hrest⟩ := List.forall_mem_cons.mp h
    have hstep : step s = .next (s.complete q response) := step_next_of_answer hpending hq
    have htail : (s.complete q response).pending = qs := by rw [State.complete_pending, hpending, List.tail_cons]
    obtain ⟨t, hrun, ht, hconfig, answered, hserved, hfst, hanswered⟩ := ih htail hrest
    refine ⟨t, (run_succ_next (M := core) hstep _).trans hrun, ht, hconfig, (q, response) :: answered, ?_, ?_, ?_⟩
    · rw [hserved, State.complete_served, List.append_assoc, List.singleton_append]
    · rw [List.map_cons, hfst]
    · intro q' response' hmem
      rcases List.mem_cons.mp hmem with hhead | htail
      · cases hhead
        exact hq
      · exact hanswered q' response' htail

/-- Settles O57: the induction is on the pending requests. -/
theorem everyPendingRequestIsAnswered : Obligations.EveryPendingRequestIsAnswered :=
  fun s h => run_answers_pending s.pending rfl h

/-- The names that an image's words decode to, in order. -/
def imageNames (table : List Descriptor) (image : List Word) : List String :=
  image.filterMap fun w => (descriptorOf table w).map Descriptor.name

theorem descriptorOf_eq_none_iff {table : List Descriptor} {w : Word} :
    descriptorOf table w = none ↔ firstMatch table w = none := by
  rw [descriptorOf, Option.map_eq_none_iff, firstMatch_eq_none_iff]

theorem imageNames_cons {table : List Descriptor} {w : Word} {d : Descriptor} (hd : descriptorOf table w = some d)
    (ws : List Word) : imageNames table (w :: ws) = d.name :: imageNames table ws := by
  simp [imageNames, hd]

section
variable {table : List Descriptor} {good : List Word} (h : ∀ w ∈ good, firstMatch table w ≠ none)
include h

theorem imageNames_length : (imageNames table good).length = good.length := by
  induction good with
  | nil => rfl
  | cons w ws ih =>
    obtain ⟨hw, hrest⟩ := List.forall_mem_cons.mp h
    obtain ⟨d, hd⟩ := Option.ne_none_iff_exists'.mp (mt descriptorOf_eq_none_iff.mp hw)
    rw [imageNames_cons hd, List.length_cons, List.length_cons, ih hrest]

/-- The loop emits the names of the words that decode and goes on behind them. -/
theorem decodeImageFrom_append (policy : InvalidWordPolicy) (rest : List Word) (emitted : List String) (k : Nat) :
    decodeImageFrom policy table emitted k (good ++ rest) =
      decodeImageFrom policy table (emitted ++ imageNames table good) (k + good.length) rest := by
  induction good generalizing emitted k with
  | nil => rw [imageNames, List.filterMap_nil, List.append_nil]; rfl
  | cons w ws ih =>
    obtain ⟨hw, hrest⟩ := List.forall_mem_cons.mp h
    obtain ⟨d, hd⟩ := Option.ne_none_iff_exists'.mp (mt descriptorOf_eq_none_iff.mp hw)
    calc decodeImageFrom policy table emitted k (w :: ws ++ rest)
      _ = decodeImageFrom policy table (emitted ++ [d.name]) (k + 1) (ws ++ rest) := by
        rw [List.cons_append, decodeImageFrom, hd]
      _ = decodeImageFrom policy table (emitted ++ [d.name] ++ imageNames table ws) (k + 1 + ws.length) rest :=
        ih hrest _ _
      _ = decodeImageFrom policy table (emitted ++ imageNames table (w :: ws)) (k + (w :: ws).length) rest := by
        rw [imageNames_cons hd, List.append_assoc, List.singleton_append, List.length_cons, Nat.add_assoc,
          Nat.add_comm 1]

end

theorem decodeImageFrom_invalid {table : List Descriptor} {bad : Word} (h : firstMatch table bad = none)
    (policy : InvalidWordPolicy) (emitted : List String) (k : Nat) (rest : List Word) :
    decodeImageFrom policy table emitted k (bad :: rest) =
      { names := emitted, stop := .atInvalidWord policy k { code := bad } } := by
  rw [decodeImageFrom, descriptorOf_eq_none_iff.mpr h]

theorem decodeImage_of_tableOk {table : List Descriptor} (hok : tableOk table = true) (policy : InvalidWordPolicy)
    (image : List Word) : decodeImage policy table image = decodeImageFrom policy table [] 0 image := by
  rw [decodeImage, if_pos hok]

/-- The whole loop over an image that begins with words that decode. -/
theorem decodeImage_append {table : List Descriptor} (hok : tableOk table = true) {good : List Word}
    (h : ∀ w ∈ good, firstMatch table w ≠ none) (policy : InvalidWordPolicy) (rest : List Word) :
    decodeImage policy table (good ++ rest) =
      decodeImageFrom policy table (imageNames table good) good.length rest := by
  rw [decodeImage_of_tableOk hok, decodeImageFrom_append h, List.nil_append, Nat.zero_add]

/-- Settles O58: the loop reaches the end of the image, or the invalid word, with the names of the words before it. -/
theorem imageLoopStopsAtFirstInvalidWord : Obligations.ImageLoopStopsAtFirstInvalidWord := by
  intro policy table good rest bad hok h
  have hloop := decodeImage_append hok h
  refine ⟨imageNames_length h, ?_, fun hbad => ⟨?_, ?_⟩⟩
  · have hend := hloop policy []
    rwa [List.append_nil] at hend
  · exact (hloop .halt (bad :: rest)).trans (decodeImageFrom_invalid hbad .halt _ _ rest)
  · exact (hloop .trap (bad :: rest)).trans (decodeImageFrom_invalid hbad .trap _ _ rest)

end Sys2Proof.Machine
end

section
/-! The index port's width (R8), and the requests that no port and no Instruction carries: they are refused by name, and
beside them only execution is. -/
namespace Sys2Proof

/-- `IDX_W` is the least width of at least one bit that holds every index (R8). -/
theorem indexWidth_le {n w : Nat} (hw : 1 ≤ w) (hn : n ≤ 2 ^ w) : indexWidth n ≤ w := by
  refine max_le hw ?_
  cases hfind : (List.range n).find? fun v => decide (n ≤ 2 ^ v) with
  | none => exact w.zero_le
  | some v =>
    obtain ⟨-, -, hleast⟩ := List.find?_range_eq_some.mp hfind
    refine Nat.le_of_not_lt fun hlt => ?_
    have hsmaller := hleast w hlt
    simp [hn] at hsmaller

/-- Settles O38: every index fits the width, and the search for it stops at the first width that fits. -/
theorem indexWidthHoldsEveryIndex : Obligations.IndexWidthHoldsEveryIndex :=
  fun _ => ⟨le_max_left .., fun _ hi => lt_two_pow_indexWidth hi, fun _ hw hn => indexWidth_le hw hn⟩

theorem carryIndex_isSome_iff (n index : Nat) : (carryIndex n index).isSome = true ↔ index < 2 ^ indexWidth n := by
  unfold carryIndex
  split <;> simp [*]

theorem carryIndex_isSome_eq_false_iff (n index : Nat) :
    (carryIndex n index).isSome = false ↔ 2 ^ indexWidth n ≤ index := by
  rw [← Bool.not_eq_true, carryIndex_isSome_iff, not_lt]

namespace Machine

section
variable {c : Config} {r : Refusal} {go : Instruction c.descTable → Answer}

theorem onRange_ne_refused {range : BitRange} {response : Response} : onRange range response ≠ .refused r := by
  unfold onRange
  split <;> nofun

/-- A word request is refused only by what follows the identification. -/
theorem identify_eq_refused {raw : Word} (h : identify c raw go = .refused r) :
    ∃ i, firstInstruction c.descTable raw = some i ∧ go i = .refused r := by
  cases hscan : firstInstruction c.descTable raw with
  | some i => exact ⟨i, rfl, identify_some hscan go ▸ h⟩
  | none =>
    rw [identify_none ((firstMatch_eq_none_iff _ _).mpr hscan)] at h
    cases h

/-- A number that the port carries is refused only by what follows the index check. -/
theorem atPort_eq_refused {index : Nat} (hindex : (carryIndex c.descTable.length index).isSome = true)
    (h : atPort c index go = .refused r) : ∃ i, go i = .refused r := by
  obtain ⟨p, rfl⟩ := exists_indexPort_toNat_eq ((carryIndex_isSome_iff _ _).mp hindex)
  rcases Nat.lt_or_ge p.toNat c.descTable.length with hlt | hge
  · exact ⟨_, atPort_instruction c ⟨p.toNat, hlt⟩ go ▸ h⟩
  · rw [atPort_ge hge] at h
    cases h

/-- An operation on an Instruction is refused only by what the operation itself does. -/
theorem atInstruction_eq_refused {index : Nat} (hlt : index < c.descTable.length)
    (h : atInstruction c index go = .refused r) : go ⟨index, hlt⟩ = .refused r :=
  atInstruction_instruction c ⟨index, hlt⟩ go ▸ h

end

section
variable {c : Config} (hok : tableOk c.descTable = true)
include hok

/-- A request that is not well-formed is refused as what it is: a number too wide for the port, or no Instruction. -/
theorem answer_of_not_wf {q : Request} (hq : q.wf c.descTable.length = false) :
    ∃ index, c.descTable.length ≤ index ∧
      (answer c q = .refused (.indexNotCarried index) ∧ 2 ^ indexWidth c.descTable.length ≤ index ∨
        answer c q = .refused (.notAnInstruction index) ∧ q ∈ [.name index, .executeInstr index]) := by
  cases q with
  | extract | replace | decode | classifyWord | execute => cases hq
  | opcode index | mask index | code index | classOf index | classify index =>
    have hwide := (carryIndex_isSome_eq_false_iff _ _).mp hq
    exact ⟨index, (le_two_pow_indexWidth _).trans hwide, .inl ⟨(onRom_ok hok _).trans (atPort_wide hwide _), hwide⟩⟩
  | name index | executeInstr index =>
    have hge := Nat.le_of_not_lt (of_decide_eq_false hq)
    exact ⟨index, hge, .inr ⟨(onRom_ok hok _).trans (atInstruction_ge hge _), by simp⟩⟩

/-- A well-formed request is refused only where it asks for the execution of an Instruction. -/
theorem refused_of_wf {q : Request} (hq : q.wf c.descTable.length = true) {r : Refusal}
    (h : answer c q = .refused r) :
    ∃ i : Instruction c.descTable, r = .executionNotInSource (nameOf c.descTable i) ∧
      (q = .executeInstr i.val ∨ ∃ raw, q = .execute raw ∧ firstInstruction c.descTable raw = some i) := by
  cases q with
  | extract | replace => exact absurd h onRange_ne_refused
  | decode raw | classifyWord raw =>
    obtain ⟨i, -, hgo⟩ := identify_eq_refused ((onRom_ok hok _).symm.trans h)
    cases hgo
  | execute raw =>
    obtain ⟨i, hi, hgo⟩ := identify_eq_refused ((onRom_ok hok _).symm.trans h)
    exact ⟨i, (Host.Outcome.refused.inj hgo).symm, .inr ⟨raw, rfl, hi⟩⟩
  | opcode index | mask index | code index | classOf index | classify index =>
    obtain ⟨i, hgo⟩ := atPort_eq_refused hq ((onRom_ok hok _).symm.trans h)
    cases hgo
  | name index => cases atInstruction_eq_refused (of_decide_eq_true hq) ((onRom_ok hok _).symm.trans h)
  | executeInstr index =>
    have hlt : index < c.descTable.length := of_decide_eq_true hq
    have hgo := atInstruction_eq_refused hlt ((onRom_ok hok _).symm.trans h)
    exact ⟨⟨index, hlt⟩, (Host.Outcome.refused.inj hgo).symm, .inl rfl⟩

end

/-- Settles O60: the check in front of each index, and the one refusal of EXECUTE. -/
theorem unpresentableIndexIsRefused : Obligations.UnpresentableIndexIsRefused :=
  fun _ _ hok => ⟨answer_of_not_wf hok, fun hq _ h => refused_of_wf hok hq h⟩

end Machine

end Sys2Proof
end
